-- ==== Sys2Proof/Word.lean ====
section
/-! DEFINITION. The words of the unit: a byte lane, the control word, the status word and a data port. -/

namespace Sys2Proof

/-- One element of a byte sequence, and one lane of a port: 8 bits, unsigned (R6, R20). -/
abbrev Byte := BitVec 8

/-- The control word `CW` of a command (R50). -/
abbrev ControlWord := BitVec 16

/-- The status word `SW` of a response (R51). -/
abbrev StatusWord := BitVec 16

/-- A data port of sixteen byte lanes (R26, R29, R43). -/
abbrev Port := BitVec 128

end Sys2Proof
end

