-- ==== Sys2Proof/Syntax.lean ====
section
/-! DEFINITION. The instructions: one constructor for each row of spec/opcode_table.json (R10, R52). -/

namespace Sys2Proof

/-- Which of the two address lengths a byte sequence has (R15, R20). -/
inductive Family where
  /-- Four bytes (IPv4). -/
  | v4
  /-- Sixteen bytes (IPv6). -/
  | v6
deriving DecidableEq, Repr

/-- A control word whose `RSV` field is zero, taken apart (R50, R52, R53).
Every constructor holds all three fields of the format, also those its command ignores (R28), so
that no bit of a word is lost; the operands `A` and `B` travel on the data ports beside the word. -/
inductive Instr where
  /-- `BAND`, `OP` = 0: byte-wise AND (R71). -/
  | band (fa fb : Family) (p : Nat)
  /-- `BOR`, `OP` = 1: byte-wise OR (R72). -/
  | bor (fa fb : Family) (p : Nat)
  /-- `BXOR`, `OP` = 2: byte-wise exclusive OR (R73). -/
  | bxor (fa fb : Family) (p : Nat)
  /-- The reserved `OP` = 3, whose answer is always `IllegalOperation` (R56). -/
  | reserved3 (fa fb : Family) (p : Nat)
  /-- `MFP`, `OP` = 4: expand a prefix length to a mask (R82). -/
  | mfp (fa fb : Family) (p : Nat)
  /-- `PFM`, `OP` = 5: reduce a mask to a prefix length (R84). -/
  | pfm (fa fb : Family) (p : Nat)
  /-- `CMP`, `OP` = 6: subnet information from an address and a prefix length (R95). -/
  | cmp (fa fb : Family) (p : Nat)
  /-- `CMPM`, `OP` = 7: subnet information from an address and a mask (R96). -/
  | cmpm (fa fb : Family) (p : Nat)
deriving DecidableEq, Repr

end Sys2Proof
end

