-- ==== Sys2Proof/WellFormed.lean ====
section
/-! DEFINITION. When an instruction can be written as a control word. -/

namespace Sys2Proof

/-- The prefix-length field of an instruction (R50). -/
def Instr.pField : Instr → Nat
  | .band _ _ p | .bor _ _ p | .bxor _ _ p | .reserved3 _ _ p
  | .mfp _ _ p | .pfm _ _ p | .cmp _ _ p | .cmpm _ _ p => p

/-- `P` is an unsigned 8-bit field, values 0 to 255 (`P_WIDTH` of R6, R53). Nothing else can be
ill-formed: both values of a family tag are defined, and a `P` above the bit length is a data error
and no illegal encoding (R57). -/
def Instr.wellFormed (i : Instr) : Bool := i.pField < 256

end Sys2Proof
end

