-- ==== Sys2Proof/Decode.lean ====
section
/-! DEFINITION. Control words to instructions, total and by name, and back (R50 to R57). -/

namespace Sys2Proof

/-- `len(f)`: the number of bytes of a family (R13). -/
def Family.len : Family → Nat
  | .v4 => 4
  | .v6 => 16

/-- `bitlen(f)` = 8 × `len(f)`: 32 or 128 (R13). -/
def Family.bitlen (f : Family) : Nat := 8 * f.len

/-- A family tag: 0 = `V4`, 1 = `V6` (R26, D5). -/
def Family.ofTag (b : Bool) : Family := if b then .v6 else .v4

/-- The tag bit of a family. -/
def Family.tag : Family → Bool
  | .v4 => false
  | .v6 => true

/-- `FA = CW[12]` (R53). -/
def faField (cw : ControlWord) : Family := Family.ofTag (cw.getLsbD 12)

/-- `FB = CW[11]` (R53). -/
def fbField (cw : ControlWord) : Family := Family.ofTag (cw.getLsbD 11)

/-- `RSV = CW[10:8]` (R53). -/
def rsvField (cw : ControlWord) : BitVec 3 := cw.extractLsb' 8 3

/-- `OP = CW[15:13]` (R53). -/
def opField (cw : ControlWord) : BitVec 3 := cw.extractLsb' 13 3

/-- `P = CW[7:0]`: unsigned, not extended, not scaled, not shifted (R53). -/
def pField (cw : ControlWord) : Nat := (cw.extractLsb' 0 8).toNat

/-- Why a control word is no row of the opcode table. -/
inductive DecodeError where
  /-- `RSV /= 000`: an illegal control word whatever `OP` is (R56 case (a)). -/
  | reservedBitsSet (rsv : BitVec 3)
deriving DecidableEq, Repr

/-- The row of the opcode map that the three bits of `OP`, the highest first, select (R52). -/
def selectOp (op2 op1 op0 : Bool) (fa fb : Family) (p : Nat) : Instr :=
  match op2, op1, op0 with
  | false, false, false => .band fa fb p
  | false, false, true  => .bor fa fb p
  | false, true,  false => .bxor fa fb p
  | false, true,  true  => .reserved3 fa fb p
  | true,  false, false => .mfp fa fb p
  | true,  false, true  => .pfm fa fb p
  | true,  true,  false => .cmp fa fb p
  | true,  true,  true  => .cmpm fa fb p

/-- Decoding is total: first test `RSV`, then select on `OP` (R54). A word with `RSV /= 000` is the
only one that is no instruction, and it is refused by name; the unit answers it with
`IllegalOperation` (R56), which `Sys2Proof.Machine.answerIllegalWord` does. -/
def decode (cw : ControlWord) : Except DecodeError Instr :=
  if rsvField cw = 0#3 then
    .ok (selectOp (cw.getLsbD 15) (cw.getLsbD 14) (cw.getLsbD 13)
      (faField cw) (fbField cw) (pField cw))
  else
    .error (.reservedBitsSet (rsvField cw))

/-- The value of `OP` of an instruction (R52). -/
def Instr.opcode : Instr → BitVec 3
  | .band ..      => 0b000#3
  | .bor ..       => 0b001#3
  | .bxor ..      => 0b010#3
  | .reserved3 .. => 0b011#3
  | .mfp ..       => 0b100#3
  | .pfm ..       => 0b101#3
  | .cmp ..       => 0b110#3
  | .cmpm ..      => 0b111#3

/-- The `FA` field of an instruction (R50). -/
def Instr.faTag : Instr → Family
  | .band fa _ _ | .bor fa _ _ | .bxor fa _ _ | .reserved3 fa _ _
  | .mfp fa _ _ | .pfm fa _ _ | .cmp fa _ _ | .cmpm fa _ _ => fa

/-- The `FB` field of an instruction (R50). -/
def Instr.fbTag : Instr → Family
  | .band _ fb _ | .bor _ fb _ | .bxor _ fb _ | .reserved3 _ fb _
  | .mfp _ fb _ | .pfm _ fb _ | .cmp _ fb _ | .cmpm _ fb _ => fb

/-- The control word of an instruction: `OP`, `FA`, `FB`, `RSV` = 000, `P` (R50). -/
def encode (i : Instr) : ControlWord :=
  i.opcode ++ BitVec.ofBool i.faTag.tag ++ BitVec.ofBool i.fbTag.tag ++ 0b000#3
    ++ BitVec.ofNat 8 i.pField

/-- The canonical form of an instruction: every field its command ignores is zero (R55, R28).
The reserved `OP` reads no field at all. -/
def Instr.canonical : Instr → Instr
  | .band fa fb _    => .band fa fb 0
  | .bor fa fb _     => .bor fa fb 0
  | .bxor fa fb _    => .bxor fa fb 0
  | .reserved3 _ _ _ => .reserved3 .v4 .v4 0
  | .mfp fa _ p      => .mfp fa .v4 p
  | .pfm _ fb _      => .pfm .v4 fb 0
  | .cmp fa _ p      => .cmp fa .v4 p
  | .cmpm fa fb _    => .cmpm fa fb 0

/-- The instruction read from the low `nbits` bits of `w`, every bit above them zero. An instruction
is ONE 16-bit control word (R50), presented on a port and not stored in bytes, so there is no byte
order to lay it out in (log entry 9). -/
def decodeTableWord (nbits w : Nat) : Option Instr :=
  match decode (BitVec.ofNat 16 (w % 2 ^ nbits)) with
  | .ok i => some i
  | .error _ => none

end Sys2Proof
end

