-- ==== Sys2Proof/Config.lean ====
section
/-! DEFINITION. What an implementation fixes, and the values the spec leaves open. -/

namespace Sys2Proof

/-- The static configuration of one unit (R6, R33): no command reads it out or writes it. -/
structure Config where
  /-- `STRICT_V6`: `CMP` and `CMPM` reject IPv6 prefix lengths above 126 (R80). OPEN in the spec
  (D15); every statement of this model holds for both values or names the one it assumes. -/
  strictV6 : Bool
deriving DecidableEq, Repr

/-- The configuration the spec takes where nothing else is said (R6: default `false`). -/
def Config.initial : Config := { strictV6 := false }

/-- FREE VALUE: byte `i` of `MaskFromPrefix(p, n)` for `p > 8*n`, where "the function is not defined
by this spec" (R81, C7, I6). No command reaches it. Log entry 5 (safe). -/
opaque Config.maskBeyondLength (p n i : Nat) : Byte

/-- FREE VALUE: what the 8-bit incrementer gives on a byte of 0xFF: "not specified and not
reachable" (R97, I5, N12). Log entry 6 (safe). -/
opaque Config.incrementPastTop : Byte

/-- FREE VALUE: what the 8-bit decrementer gives on a byte of 0x00: "not specified and not
reachable" (R97, I5, N12). Log entry 6 (safe). -/
opaque Config.decrementPastBottom : Byte

end Sys2Proof
end

