-- ==== Sys2Proof/Machine/State.lean ====
section
/-! DEFINITION. The state of the machine, the command and response bundles, and why a step can stop. -/

namespace Sys2Proof.Machine

/-- The error kinds the unit can report (R111). Codes 1, 2 and 7 have no constructor: the unit never
produces them (R111, I11). -/
inductive ErrorKind where
  /-- A prefix length outside `[0, bitlength]`, or above the strict IPv6 limit (R80). -/
  | prefixOutOfRange
  /-- A mask byte that is none of the nine canonical bytes (R83). -/
  | invalidSubnetMask
  /-- Two operands of different lengths (R70, R96). -/
  | lengthMismatch
  /-- A control word with the reserved `OP` or with `RSV /= 000` (R56). -/
  | illegalOperation
deriving DecidableEq, Repr

/-- The error kinds only the host can report, because only text can cause them; their codes are
reserved in the unit's code space (R5, R111). -/
inductive HostError where
  /-- "unparseable IP literal". -/
  | invalidAddress
  /-- "non-integer prefix". -/
  | invalidPrefixLength
deriving DecidableEq, Repr

/-- The status `ST` of a response (R29, R111). -/
inductive Status where
  /-- The command succeeded. -/
  | ok
  /-- The command failed with this kind. -/
  | error (k : ErrorKind)
deriving DecidableEq, Repr

/-- The record `Compute` produces (R24): the input address unchanged, the network address, the
canonical mask, the prefix length, and the first and last usable host, both present or both absent. -/
structure SubnetInfo where
  family : Family
  address : List Byte
  network : List Byte
  mask : List Byte
  prefixLength : Nat
  range : Option (List Byte × List Byte)
deriving DecidableEq, Repr

/-- The response as a tagged value (R31). -/
inductive Result where
  /-- `ST /= 0`, all else zero. -/
  | error (k : ErrorKind)
  /-- `BAND`, `BOR`, `BXOR`: the bytes of `Y`. -/
  | bytes (f : Family) (y : List Byte)
  /-- `MFP`: the bytes of `MASK`. -/
  | maskOut (f : Family) (m : List Byte)
  /-- `PFM`: the prefix length. -/
  | prefixLen (f : Family) (p : Nat)
  /-- `CMP`, `CMPM`: the subnet information. -/
  | info (i : SubnetInfo)
deriving DecidableEq, Repr

/-- The command bundle: the control word, which carries `OP`, `FA`, `FB`, `RSV` and `P`, and the two
operand ports, presented together and sampled together (R26, R50). -/
structure Command where
  cw : ControlWord
  a : Port
  b : Port
deriving DecidableEq, Repr

/-- The response bundle: ten fields, all produced together by one command (R29). -/
structure Response where
  st : Status
  fr : Family
  hr : Bool
  plen : BitVec 8
  y : Port
  addr : Port
  net : Port
  mask : Port
  first : Port
  last : Port
deriving DecidableEq, Repr

/-- The state between two transactions. The unit itself holds nothing (R32): `config` is its static
configuration (R33), and the two lists are the two sides of its interface, which the unit neither
reads back nor keeps (R34, log entries 1 and 2). -/
structure State where
  /-- `STRICT_V6` (R33); no step changes it. -/
  config : Config
  /-- The MODEL's own field: the commands the host has still to present, the next one first. -/
  queue : List Command
  /-- The MODEL's own field: the responses delivered so far, one per command, the oldest first. -/
  responses : List Response
deriving DecidableEq, Repr

/-- Why the machine can stop. An error of a command is no fault: it is a value in the response, and
the run goes on (R110, R116). -/
inductive Fault where
  /-- Raised by a step when the host presents no command: a step is a transaction (R8), and the run
  "ends when the host presents no further command" (R34). Safe: nothing can be proved of a response
  nobody asked for (R37). Log entry 3. -/
  | noCommand
deriving DecidableEq, Repr

/-- Why the model can refuse an instruction. -/
inductive Refusal where
  /-- The instruction has no meaning in the model yet; raised by `exec` alone. Safe. No arm of
  `exec` raises it: every row of the opcode table has its meaning. -/
  | notModelled (mnemonic : String)
deriving DecidableEq, Repr

/-- The unit of configuration `cfg` right after reset: nothing presented, nothing delivered. "There is
no reset value to state for any register, flag or field: there are none" (R130); the configuration
keeps its value (R131). -/
def State.resetWith (cfg : Config) : State := { config := cfg, queue := [], responses := [] }

/-- The unit of the spec's default configuration right after reset (R6, R130; log entry 4). -/
def State.reset : State := { config := Config.initial, queue := [], responses := [] }

end Sys2Proof.Machine
end

