-- ==== Sys2Proof/Machine/Operands.lean ====
section
/-! DEFINITION. Lanes on the ports, operands as byte sequences, and the written form of commands. -/

namespace Sys2Proof.Machine

/-- `X[i]`: lane `i`, for `i` from 0 to 15, is port bits `[127 - 8*i : 120 - 8*i]`; bit 7 of the byte
is the higher port bit (R13, R43). -/
def lane (x : Port) (i : Nat) : Byte := x.extractLsb' (120 - 8 * i) 8

/-- The byte sequence of family `f` on a port: lanes 0 to `len(f) - 1`; the lanes beyond do not belong
to it (R27, R53). -/
def bytesOf (f : Family) (x : Port) : List Byte := (List.range f.len).map (lane x)

/-- A byte alone in lane `i` of an otherwise zero port (R43). -/
def inLane (i : Nat) (v : Byte) : Port := v.setWidth 128 <<< (120 - 8 * i)

/-- The bytes of a list in the lanes from `i` up, every other lane zero. -/
def portFrom : Nat → List Byte → Port
  | _, [] => 0
  | i, v :: vs => inLane i v ||| portFrom (i + 1) vs

/-- A byte sequence on a port: byte index `i` in lane `i`, every lane beyond it 0x00 (R30, R43). -/
def portOf (bs : List Byte) : Port := portFrom 0 bs

/-- Operand `A` of a command whose `FA` is `fa` (R53). -/
def Command.operandA (fa : Family) (c : Command) : List Byte := bytesOf fa c.a

/-- Operand `B` of a command whose `FB` is `fb` (R53). -/
def Command.operandB (fb : Family) (c : Command) : List Byte := bytesOf fb c.b

/-- The family of a written byte sequence, by its count: four or sixteen bytes, and no other length
exists (R20, R58). -/
def familyOf (bs : List Byte) : Option Family :=
  if bs.length = 4 then some .v4 else if bs.length = 16 then some .v6 else none

/-- A command bundle from an instruction and its operands' bytes (R58). -/
def assemble (i : Instr) (a b : List Byte) : Command :=
  { cw := encode i, a := portOf a, b := portOf b }

/-- `BAND a, b` as written, in canonical form (R55, R58). -/
def writeBand (a b : List Byte) : Option Command := do
  let fa ← familyOf a
  let fb ← familyOf b
  pure (assemble (.band fa fb 0) a b)

/-- `BOR a, b` as written (R55, R58). -/
def writeBor (a b : List Byte) : Option Command := do
  let fa ← familyOf a
  let fb ← familyOf b
  pure (assemble (.bor fa fb 0) a b)

/-- `BXOR a, b` as written (R55, R58). -/
def writeBxor (a b : List Byte) : Option Command := do
  let fa ← familyOf a
  let fb ← familyOf b
  pure (assemble (.bxor fa fb 0) a b)

/-- `MFP f, p` as written, `p` a number 0 to 255 (R55, R58). -/
def writeMfp (f : Family) (p : Nat) : Option Command :=
  if p < 256 then some (assemble (.mfp f .v4 p) [] []) else none

/-- `PFM m` as written (R55, R58). -/
def writePfm (m : List Byte) : Option Command := do
  let fb ← familyOf m
  pure (assemble (.pfm .v4 fb 0) [] m)

/-- `CMP a, p`, also written `CMP a/p` (R55, R58). -/
def writeCmp (a : List Byte) (p : Nat) : Option Command := do
  let fa ← familyOf a
  if p < 256 then some (assemble (.cmp fa .v4 p) a []) else none

/-- `CMPM a, m` as written, `a` the address and `m` the mask (R55, R58). -/
def writeCmpm (a m : List Byte) : Option Command := do
  let fa ← familyOf a
  let fb ← familyOf m
  pure (assemble (.cmpm fa fb 0) a m)

/-- `CW=0x....  A=[..]  B=[..]`: a raw command (R58). -/
def writeRaw (cw : ControlWord) (a b : List Byte) : Command :=
  { cw := cw, a := portOf a, b := portOf b }

end Sys2Proof.Machine
end

