-- ==== Sys2Proof/Machine/Flags.lean ====
section
/-! DEFINITION. Status codes, the status word, and the two forms of a response: the flat bundle and the
tagged value. There is no flags register (R35): `ST`, `FR`, `HR` and `PLEN` are fields of a response. -/

namespace Sys2Proof.Machine

/-- The status code of an error kind (R111). -/
def ErrorKind.code : ErrorKind → BitVec 3
  | .prefixOutOfRange  => 3#3
  | .invalidSubnetMask => 4#3
  | .lengthMismatch    => 5#3
  | .illegalOperation  => 6#3

/-- The codes kept for the host's own reports (R111). -/
def HostError.code : HostError → BitVec 3
  | .invalidAddress      => 1#3
  | .invalidPrefixLength => 2#3

/-- The code of a status: 0 is `OK` (R111). -/
def Status.code : Status → BitVec 3
  | .ok => 0#3
  | .error k => k.code

/-- The status word: `ST` [15:13], `FR` [12], `HR` [11], 000 [10:8], `PLEN` [7:0] (R51). -/
def Response.sw (r : Response) : StatusWord :=
  r.st.code ++ BitVec.ofBool r.fr.tag ++ BitVec.ofBool r.hr ++ 0b000#3 ++ r.plen

/-- Every field zero in all its bits, with `ST` = 0: what a command starts from, because a field it
does not write is zero (R30). -/
def Response.zero : Response :=
  { st := .ok, fr := .v4, hr := false, plen := 0, y := 0, addr := 0, net := 0, mask := 0,
    first := 0, last := 0 }

/-- The error response: `ST` is the code, every other field zero (R113). -/
def Response.failed (k : ErrorKind) : Response := { Response.zero with st := .error k }

/-- The bytes of an optional address on a port, all zero when it is absent (R30, D17). -/
def portOfOption : Option (List Byte) → Port
  | some bs => portOf bs
  | none => 0

/-- The flat response of a tagged result: the fields its command writes, all others zero, and the lanes
at and above `len(FR)` zero (R30, R31). -/
def Result.toResponse : Result → Response
  | .error k => Response.failed k
  | .bytes f y => { Response.zero with fr := f, y := portOf y }
  | .maskOut f m => { Response.zero with fr := f, mask := portOf m }
  | .prefixLen f p => { Response.zero with fr := f, plen := BitVec.ofNat 8 p }
  | .info i =>
    { Response.zero with
      fr := i.family
      hr := i.range.isSome
      plen := BitVec.ofNat 8 i.prefixLength
      addr := portOf i.address
      net := portOf i.network
      mask := portOf i.mask
      first := portOfOption (i.range.map Prod.fst)
      last := portOfOption (i.range.map Prod.snd) }

/-- The subnet information a successful `CMP` or `CMPM` response carries: `FIRST` and `LAST` are an
address only when `HR` = 1 (R30, R132 item 5). -/
def Response.readInfo (r : Response) : SubnetInfo :=
  { family := r.fr
    address := bytesOf r.fr r.addr
    network := bytesOf r.fr r.net
    mask := bytesOf r.fr r.mask
    prefixLength := r.plen.toNat
    range := if r.hr then some (bytesOf r.fr r.first, bytesOf r.fr r.last) else none }

/-- How a host reads a response: `ST` first; then which constructor it is from the `OP` it sent
(R31, R132 items 5 and 6). A reserved `OP` never succeeds; were `ST` zero there, nothing is written. -/
def Response.read (i : Instr) (r : Response) : Result :=
  match r.st with
  | .error k => .error k
  | .ok =>
    match i with
    | .band .. => .bytes r.fr (bytesOf r.fr r.y)
    | .bor .. => .bytes r.fr (bytesOf r.fr r.y)
    | .bxor .. => .bytes r.fr (bytesOf r.fr r.y)
    | .reserved3 .. => .error .illegalOperation
    | .mfp .. => .maskOut r.fr (bytesOf r.fr r.mask)
    | .pfm .. => .prefixLen r.fr r.plen.toNat
    | .cmp .. => .info r.readInfo
    | .cmpm .. => .info r.readInfo

end Sys2Proof.Machine
end

