-- ==== Sys2Proof/Machine/Ops.lean ====
section
/-! DEFINITION. The shared operations: one transaction, raising an error, the prefix guard,
MaskFromPrefix, PrefixFromMask and the host's side of the interface. -/

namespace Sys2Proof.Machine

/-- The command bundle on the ports: the next one the host presents, if any (R26, R34). -/
def State.presented (s : State) : Option Command := s.queue.head?

/-- The response `r` is delivered, and the command it answers is gone from the ports; nothing else
changes (R29, R32, R34). -/
def State.deliver (s : State) (r : Response) : State :=
  { s with queue := s.queue.tail, responses := s.responses ++ [r] }

/-- ONE TRANSACTION (R8, R41): the whole command bundle is sampled and the whole response bundle
delivered as one unit. The response is a function of the command and of the configuration only
(R32). With no command presented there is no transaction. -/
def State.transact (s : State) (answer : Config → Command → Result) :
    Host.Outcome State Fault Refusal :=
  match s.presented with
  | none => .fault .noCommand
  | some c => .next (s.deliver (answer s.config c).toResponse)

/-- `raise <Error>`: TAKING AN ERROR, the one shared operation for it. The command ends at once with
the status code of the error and every other response field zero (R13, R113); no state is saved, no
mode changes, control goes nowhere (R116), and there is nothing to return from (R117). -/
def raise (k : ErrorKind) : Result := .error k

/-- The answer to a control word that is no row of the opcode table, `RSV /= 000`:
`IllegalOperation`, no other effect (R56). -/
def answerIllegalWord (_ : DecodeError) (s : State) : Host.Outcome State Fault Refusal :=
  s.transact fun _ _ => raise .illegalOperation

/-- `V6_STRICT_MAX`: the largest IPv6 prefix length accepted when `STRICT_V6` is true (R6). -/
def v6StrictMax : Nat := 126

/-- `PrefixGuard(p, f, strict)` (R80). -/
def prefixGuard (cfg : Config) (p : Nat) (f : Family) (strict : Bool) : Except ErrorKind Unit :=
  if p > f.bitlen then .error .prefixOutOfRange
  else if strict = true ∧ cfg.strictV6 = true ∧ f = .v6 ∧ p > v6StrictMax then
    .error .prefixOutOfRange
  else .ok ()

/-- Byte `i` of the mask of prefix length `p`: 0xFF, a partial byte `(0xFF << s) mod 256`, or 0x00
(R81). -/
def maskByte (p i : Nat) : Byte :=
  if p ≥ (i + 1) * 8 then 0xFF#8
  else if p > i * 8 then BitVec.ofNat 8 (0xFF <<< ((i + 1) * 8 - p))
  else 0x00#8

/-- `MaskFromPrefix(p, n)` (R81). For `p > 8*n` the spec gives no value: each byte is free. -/
def maskFromPrefix (p n : Nat) : List Byte :=
  (List.range n).map fun i => if p ≤ 8 * n then maskByte p i else Config.maskBeyondLength p n i

/-- What each of the nine canonical bytes contributes to a prefix length (R83). -/
def canonicalBytes : List (Byte × Nat) :=
  [(0x00#8, 0), (0x80#8, 1), (0xC0#8, 2), (0xE0#8, 3), (0xF0#8, 4),
   (0xF8#8, 5), (0xFC#8, 6), (0xFE#8, 7), (0xFF#8, 8)]

/-- `contribution(b)`: none for a byte that is not canonical (R83). -/
def contribution (b : Byte) : Option Nat := canonicalBytes.lookup b

/-- `PrefixFromMask(m)`: the sum of the contributions; a byte that is not canonical is
`InvalidSubnetMask` (R83). The check is per byte and nothing else: gaps across bytes pass (C2, D30). -/
def prefixFromMask : List Byte → Except ErrorKind Nat
  | [] => .ok 0
  | b :: bs =>
    match contribution b, prefixFromMask bs with
    | some k, .ok s => .ok (k + s)
    | none, _ => .error .invalidSubnetMask
    | some _, .error e => .error e

/-- The host presents one more command, after those it presented before (R9, R34). -/
def State.present (s : State) (c : Command) : State := { s with queue := s.queue ++ [c] }

/-- A reset between two transactions: it initialises nothing, because there is nothing to initialise,
and the configuration keeps its value (R130, R131). What the host has received and what it will
present are the host's (log entry 11). -/
def State.onReset (s : State) : State := s

/-- `a < b` for two Addresses of one length: at the lowest index where they differ, `a[i] < b[i]`
(R21). -/
def bytesLess : List Byte → List Byte → Bool
  | a :: as, b :: bs => if a = b then bytesLess as bs else a.toNat < b.toNat
  | _, _ => false

/-- The order of Addresses; between Addresses of different lengths there is none (R21, I9). -/
def addressLess (a b : List Byte) : Option Bool :=
  if a.length = b.length then some (bytesLess a b) else none

end Sys2Proof.Machine
end

