-- ==== Sys2Proof/Machine/ByteOp.lean ====
section
/-! DEFINITION. The commands `BAND`, `BOR`, `BXOR` (R70 to R73). -/

namespace Sys2Proof.Machine

/-- `ByteOp(f)`: element-wise, on two operands of one length (R70). -/
def byteOp (f : Byte → Byte → Byte) (fa fb : Family) (c : Command) : Result :=
  if fa ≠ fb then raise .lengthMismatch
  else .bytes fa (List.zipWith f (c.operandA fa) (c.operandB fb))

/-- `BAND`: `Y[i] <- A[i] & B[i]` (R71). `P` is ignored. -/
def execBand (fa fb : Family) (s : State) : Host.Outcome State Fault Refusal :=
  s.transact fun _ c => byteOp (· &&& ·) fa fb c

/-- `BOR`: `Y[i] <- A[i] | B[i]` (R72). `P` is ignored. -/
def execBor (fa fb : Family) (s : State) : Host.Outcome State Fault Refusal :=
  s.transact fun _ c => byteOp (· ||| ·) fa fb c

/-- `BXOR`: `Y[i] <- A[i] ^ B[i]` (R73). `P` is ignored. -/
def execBxor (fa fb : Family) (s : State) : Host.Outcome State Fault Refusal :=
  s.transact fun _ c => byteOp (· ^^^ ·) fa fb c

end Sys2Proof.Machine
end

