-- ==== Sys2Proof/Machine/Compute.lean ====
section
/-! DEFINITION. `Compute` and the commands `CMP` and `CMPM` (R90 to R96). -/

namespace Sys2Proof.Machine

/-- The 8-bit incrementer of the last lane; past 0xFF it is not specified (R92, R97). -/
def incrementByte (b : Byte) : Byte := if b = 0xFF#8 then Config.incrementPastTop else b + 1#8

/-- The 8-bit decrementer of the last lane; below 0x00 it is not specified (R92, R97). -/
def decrementByte (b : Byte) : Byte := if b = 0x00#8 then Config.decrementPastBottom else b - 1#8

/-- Only the last byte is adjusted, without carry or borrow into the one before it (R92, D18). -/
def adjustLast (f : Byte → Byte) : List Byte → List Byte
  | [] => []
  | [b] => [f b]
  | b :: bs => b :: adjustLast f bs

/-- `network[i] <- a[i] & mask[i]` (R90). -/
def networkOf (a mask : List Byte) : List Byte := List.zipWith (· &&& ·) a mask

/-- `usable <- (mask[n-1] <= 0xFC)`, an unsigned comparison of the last byte (R91). -/
def usable (mask : List Byte) : Bool := (mask.getLastD 0#8).toNat ≤ 0xFC

/-- `hostmask[i] <- mask[i] ^ 0xFF` (R92). -/
def hostMask (mask : List Byte) : List Byte := mask.map (· ^^^ 0xFF#8)

/-- `broadcast[i] <- network[i] | hostmask[i]`, the all-ones host; it is no output (R92, D27). -/
def broadcastOf (network mask : List Byte) : List Byte :=
  List.zipWith (· ||| ·) network (hostMask mask)

/-- The usable host range, absent when the last mask byte is above 0xFC (R92, R93). It is a function
of the network address and the mask alone (R25, R100). -/
def hostRange (network mask : List Byte) : Option (List Byte × List Byte) :=
  if usable mask then
    some (adjustLast incrementByte network, adjustLast decrementByte (broadcastOf network mask))
  else none

/-- `Compute(a, f, p)`, for `p <= bitlen(f)` (R94). -/
def compute (a : List Byte) (f : Family) (p : Nat) : SubnetInfo :=
  let mask := maskFromPrefix p f.len
  let network := networkOf a mask
  { family := f, address := a, network := network, mask := mask, prefixLength := p,
    range := hostRange network mask }

/-- The guard with the strict limit, then `Compute`: what `CMP` does, and `CMPM` with its derived
prefix length (R95, R96). -/
def guardedCompute (cfg : Config) (a : List Byte) (f : Family) (p : Nat) : Result :=
  match prefixGuard cfg p f true with
  | .error e => raise e
  | .ok _ => .info (compute a f p)

/-- What `CMPM` answers: lengths first, then the mask bytes, then the strict limit (R96, R114). The
supplied mask is never copied to an output. -/
def cmpmResult (cfg : Config) (fa fb : Family) (c : Command) : Result :=
  if fa ≠ fb then raise .lengthMismatch
  else
    match prefixFromMask (c.operandB fa) with
    | .error e => raise e
    | .ok p => guardedCompute cfg (c.operandA fa) fa p

/-- `CMP`: subnet information from an address and a prefix length; `FB`, `B` are ignored (R95). -/
def execCmp (fa : Family) (p : Nat) (s : State) : Host.Outcome State Fault Refusal :=
  s.transact fun cfg c => guardedCompute cfg (c.operandA fa) fa p

/-- `CMPM`: subnet information from an address and a mask; `P` is ignored (R96). -/
def execCmpm (fa fb : Family) (s : State) : Host.Outcome State Fault Refusal :=
  s.transact fun cfg c => cmpmResult cfg fa fb c

end Sys2Proof.Machine
end

