-- ==== Sys2Proof/Machine/PrefixMask.lean ====
section
/-! DEFINITION. The commands `MFP` and `PFM` (R82, R84). -/

namespace Sys2Proof.Machine

/-- What `MFP` answers: the strict IPv6 limit does not apply to it, and `PLEN` stays zero (R82). -/
def mfpResult (cfg : Config) (fa : Family) (p : Nat) : Result :=
  match prefixGuard cfg p fa false with
  | .error e => raise e
  | .ok _ => .maskOut fa (maskFromPrefix p fa.len)

/-- What `PFM` answers: no prefix guard is applied (R84). -/
def pfmResult (fb : Family) (c : Command) : Result :=
  match prefixFromMask (c.operandB fb) with
  | .error e => raise e
  | .ok s => .prefixLen fb s

/-- `MFP`: expand a prefix length to a mask; `A`, `FB`, `B` are ignored (R82). -/
def execMfp (fa : Family) (p : Nat) (s : State) : Host.Outcome State Fault Refusal :=
  s.transact fun cfg _ => mfpResult cfg fa p

/-- `PFM`: reduce a mask to a prefix length; `FA`, `A`, `P` are ignored (R84). -/
def execPfm (fb : Family) (s : State) : Host.Outcome State Fault Refusal :=
  s.transact fun _ c => pfmResult fb c

end Sys2Proof.Machine
end

