-- ==== Sys2Proof/Machine/Reserved.lean ====
section
/-! DEFINITION. The reserved value 3 of `OP` (R56). -/

namespace Sys2Proof.Machine

/-- `OP` = 3: always `IllegalOperation`, every other response field zero; it reads nothing (R28, R56).
The machine goes on with the next command (R110, R118). -/
def execReserved3 (s : State) : Host.Outcome State Fault Refusal :=
  s.transact fun _ _ => raise .illegalOperation

end Sys2Proof.Machine
end

