-- ==== Sys2Proof/Machine/Dispatch.lean ====
section
/-! DEFINITION. One arm per constructor of `Instr`. -/

namespace Sys2Proof.Machine

def exec (i : Instr) (s : State) : Host.Outcome State Fault Refusal :=
  match i with
  | .band fa fb _ => Sys2Proof.Machine.execBand fa fb s
  | .bor fa fb _ => Sys2Proof.Machine.execBor fa fb s
  | .bxor fa fb _ => Sys2Proof.Machine.execBxor fa fb s
  | .reserved3 _ _ _ => Sys2Proof.Machine.execReserved3 s
  | .mfp fa _ p => Sys2Proof.Machine.execMfp fa p s
  | .pfm _ fb _ => Sys2Proof.Machine.execPfm fb s
  | .cmp fa _ p => Sys2Proof.Machine.execCmp fa p s
  | .cmpm fa fb _ => Sys2Proof.Machine.execCmpm fa fb s

end Sys2Proof.Machine
end

