-- ==== Sys2Proof/Machine/Step.lean ====
section
/-! DEFINITION. One step of the machine: one transaction (R8, R34). -/

namespace Sys2Proof.Machine

/-- One transaction: the command on the ports is decoded and answered (R8, R54). A control word that is
no row of the table is answered too (R56); only with no command presented is there no step. -/
def step (s : State) : Host.Outcome State Fault Refusal :=
  match s.presented with
  | none => .fault .noCommand
  | some c =>
    match decode c.cw with
    | .ok i => exec i s
    | .error e => answerIllegalWord e s

/-- The state in which the next command presented carries the control word made of the low `nbits` bits
of `w` (every bit above them zero). A command already on the ports keeps its operands; otherwise both
operand ports are zero. It stands for the host presenting that command (R9; log entry 1). -/
def State.withFetchWord (s : State) (nbits w : Nat) : State :=
  let cw : ControlWord := BitVec.ofNat 16 (w % 2 ^ nbits)
  match s.queue with
  | [] => { s with queue := [{ cw := cw, a := 0, b := 0 }] }
  | c :: rest => { s with queue := { c with cw := cw } :: rest }

end Sys2Proof.Machine
end

