-- ==== Sys2Proof/Safety.lean ====
section
/-! DEFINITION. What counts as a good response and a good state, in the terms the statements use. -/

namespace Sys2Proof.Machine

/-- A control word from its five fields (R50). -/
def controlWord (op : BitVec 3) (fa fb : Family) (rsv : BitVec 3) (p : BitVec 8) : ControlWord :=
  op ++ BitVec.ofBool fa.tag ++ BitVec.ofBool fb.tag ++ rsv ++ p

/-- `exec : Config -> Command -> Response` of R7: what the unit of configuration `cfg` answers to the
command `c` alone, with nothing delivered before it. -/
def respond (cfg : Config) (c : Command) : Option Response :=
  match step { config := cfg, queue := [c], responses := [] } with
  | .next t => t.responses.head?
  | .fault _ => none
  | .refused _ => none

/-- The state in which `rest` is still to be presented and the response `r` has been delivered after
those before it; the configuration is as it was (R29, R32, R34). -/
def State.answered (s : State) (rest : List Command) (r : Response) : State :=
  { config := s.config, queue := rest, responses := s.responses ++ [r] }

/-- The nine canonical bytes (R15). -/
def isCanonicalByte (b : Byte) : Bool :=
  [0x00#8, 0x80#8, 0xC0#8, 0xE0#8, 0xF0#8, 0xF8#8, 0xFC#8, 0xFE#8, 0xFF#8].contains b

/-- The number of 1-bits of a byte; of a canonical byte it is its contribution (R83). -/
def onesIn (b : Byte) : Nat := (List.range 8).countP fun k => b.getLsbD k

/-- The number of 1-bits in the first `n` lanes of a port. -/
def onesInLanes (n : Nat) (x : Port) : Nat := ((List.range n).map fun i => onesIn (lane x i)).sum

/-- Every one of the first `n` lanes is a canonical byte (R112). -/
def lanesCanonical (n : Nat) (x : Port) : Bool :=
  (List.range n).all fun i => isCanonicalByte (lane x i)

/-- Bit `k` of an address, counted from the first bit as bit 0: bit `7 - (k mod 8)` of byte `k div 8`
(R12). -/
def addressBit (bs : List Byte) (k : Nat) : Bool := (bs.getD (k / 8) 0#8).getLsbD (7 - k % 8)

/-- The first `p` bits are 1 and the rest 0 (R23). -/
def hasLeadingOnes (bs : List Byte) (p : Nat) : Prop :=
  ∀ k, k < 8 * bs.length → addressBit bs k = decide (k < p)

/-- A byte sequence read as one number, byte 0 the most significant (R42, R43). -/
def bytesValue (bs : List Byte) : Nat := bs.foldl (fun n b => n * 256 + b.toNat) 0

/-- The lanes from `n` up are 0x00 (R30). -/
def zeroFrom (n : Nat) (x : Port) : Prop := ∀ i, n ≤ i → i < 16 → lane x i = 0#8

/-- Two ports agree in their first `n` lanes. -/
def sameLanes (n : Nat) (x y : Port) : Prop := ∀ i, i < n → lane x i = lane y i

/-- The fields a command reads, by its `OP` (the table of R28). -/
structure ReadSet where
  fa : Bool
  a : Bool
  fb : Bool
  b : Bool
  p : Bool
deriving DecidableEq, Repr

/-- The table of R28. -/
def readSet (op : BitVec 3) : ReadSet :=
  if op = 0#3 ∨ op = 1#3 ∨ op = 2#3 ∨ op = 7#3 then
    { fa := true, a := true, fb := true, b := true, p := false }
  else if op = 4#3 then { fa := true, a := false, fb := false, b := false, p := true }
  else if op = 5#3 then { fa := false, a := false, fb := true, b := true, p := false }
  else if op = 6#3 then { fa := true, a := true, fb := false, b := false, p := true }
  else { fa := false, a := false, fb := false, b := false, p := false }

/-- Two commands of one `OP` and one `RSV` agree in every field that the command reads, and in every
lane that belongs to an operand it reads (R27, R28). -/
def agreeOnReads (c d : Command) : Prop :=
  opField c.cw = opField d.cw ∧ rsvField c.cw = rsvField d.cw ∧
  ((readSet (opField c.cw)).fa = true → faField c.cw = faField d.cw) ∧
  ((readSet (opField c.cw)).fb = true → fbField c.cw = fbField d.cw) ∧
  ((readSet (opField c.cw)).p = true → pField c.cw = pField d.cw) ∧
  ((readSet (opField c.cw)).a = true → sameLanes (faField c.cw).len c.a d.a) ∧
  ((readSet (opField c.cw)).b = true → sameLanes (fbField c.cw).len c.b d.b)

/-- The error a command reports, from the conditions of R112 in the order of R114; none when it
succeeds. -/
def firstError (cfg : Config) (c : Command) : Option ErrorKind :=
  let op := opField c.cw
  let fa := faField c.cw
  let fb := fbField c.cw
  let p := pField c.cw
  if rsvField c.cw ≠ 0#3 ∨ op = 3#3 then some .illegalOperation
  else if (op = 0#3 ∨ op = 1#3 ∨ op = 2#3 ∨ op = 7#3) ∧ fa ≠ fb then some .lengthMismatch
  else if (op = 5#3 ∨ op = 7#3) ∧ lanesCanonical fb.len c.b = false then some .invalidSubnetMask
  else if (op = 4#3 ∨ op = 6#3) ∧ p > fa.bitlen then some .prefixOutOfRange
  else if op = 6#3 ∧ cfg.strictV6 = true ∧ fa = .v6 ∧ p > 126 then some .prefixOutOfRange
  else if op = 7#3 ∧ cfg.strictV6 = true ∧ fa = .v6 ∧ onesInLanes fa.len c.b > 126 then
    some .prefixOutOfRange
  else none

/-- The response `r` carries the subnet information of the address on port `a`, family `f`, and prefix
length `p`, lane by lane (R90 to R95). -/
structure CarriesSubnet (r : Response) (f : Family) (a : Port) (p : Nat) : Prop where
  st : r.st = .ok
  fr : r.fr = f
  plen : r.plen.toNat = p
  y : r.y = 0
  addr : sameLanes f.len r.addr a ∧ zeroFrom f.len r.addr
  mask : (∀ i, i < f.len → lane r.mask i = maskByte p i) ∧ zeroFrom f.len r.mask
  net : (∀ i, i < f.len → lane r.net i = lane a i &&& maskByte p i) ∧ zeroFrom f.len r.net
  hr : r.hr = decide ((maskByte p (f.len - 1)).toNat ≤ 0xFC)
  first : r.hr = true → (∀ i, i < f.len - 1 → lane r.first i = lane r.net i) ∧
    lane r.first (f.len - 1) = lane r.net (f.len - 1) + 1#8 ∧ zeroFrom f.len r.first
  last : r.hr = true →
    (∀ i, i < f.len - 1 → lane r.last i = lane r.net i ||| (lane r.mask i ^^^ 0xFF#8)) ∧
    lane r.last (f.len - 1) =
      (lane r.net (f.len - 1) ||| (lane r.mask (f.len - 1) ^^^ 0xFF#8)) - 1#8 ∧
    zeroFrom f.len r.last
  absent : r.hr = false → r.first = 0 ∧ r.last = 0

/-- The shape every response of the unit has (R23, R30, R91 to R93, R113): an error carries its code
and nothing else; lanes at and above `len(FR)` are zero; `PLEN` is within the bit length; `MASK` is a
contiguous run of 1-bits; without a host range `FIRST` and `LAST` are zero; with one, `PLEN` leaves two
host bits, `MASK` is the mask of `PLEN`, `NET` is `ADDR` under it, and `FIRST` and `LAST` stand one
above the network address and one below the broadcast address in the last byte. -/
structure Response.WellShaped (r : Response) : Prop where
  error : ∀ k, r.st = .error k → r = Response.failed k
  lanes : zeroFrom r.fr.len r.y ∧ zeroFrom r.fr.len r.addr ∧ zeroFrom r.fr.len r.net ∧
    zeroFrom r.fr.len r.mask ∧ zeroFrom r.fr.len r.first ∧ zeroFrom r.fr.len r.last
  plen : r.plen.toNat ≤ r.fr.bitlen
  mask : ∃ p, p ≤ r.fr.bitlen ∧ hasLeadingOnes (bytesOf r.fr r.mask) p
  absent : r.hr = false → r.first = 0 ∧ r.last = 0
  range : r.hr = true →
    r.plen.toNat ≤ r.fr.bitlen - 2 ∧
    hasLeadingOnes (bytesOf r.fr r.mask) r.plen.toNat ∧
    r.net = r.addr &&& r.mask ∧
    lane r.first (r.fr.len - 1) = lane r.net (r.fr.len - 1) + 1#8 ∧
    lane r.last (r.fr.len - 1) =
      (lane r.net (r.fr.len - 1) ||| (lane r.mask (r.fr.len - 1) ^^^ 0xFF#8)) - 1#8

/-- A good state: every response delivered so far has the shape of a response of the unit. -/
def State.Good (s : State) : Prop := ∀ r ∈ s.responses, r.WellShaped

/-- The bytes of a tagged result have the length of its family, and a prefix length is within the bit
length (R31). -/
def Result.wellTyped : Result → Prop
  | .error _ => True
  | .bytes f y => y.length = f.len
  | .maskOut f m => m.length = f.len
  | .prefixLen f p => p ≤ f.bitlen
  | .info i =>
    i.address.length = i.family.len ∧ i.network.length = i.family.len ∧
    i.mask.length = i.family.len ∧ i.prefixLength ≤ i.family.bitlen ∧
    ∀ first last, i.range = some (first, last) →
      first.length = i.family.len ∧ last.length = i.family.len

/-- What the rules R70 to R73 say of one `ByteOp` command, with operation code `op`, constructor `mk` and
lane function `f`: its encoding, its answer lane by lane, its errors. -/
def byteOpCommand (op : BitVec 3) (mk : Family → Family → Nat → Instr) (f : Byte → Byte → Byte) :
    Prop :=
  (∀ (fa fb : Family) (p : BitVec 8), decode (controlWord op fa fb 0#3 p) = .ok (mk fa fb p.toNat)) ∧
  (∀ (s : State) (c : Command) (rest : List Command) (fa fb : Family) (rsv : BitVec 3) (p : BitVec 8),
    s.queue = c :: rest → c.cw = controlWord op fa fb rsv p → rsv ≠ 0#3 →
    step s = .next (s.answered rest (Response.failed .illegalOperation))) ∧
  (∀ (s : State) (c : Command) (rest : List Command) (fa fb : Family) (p : Nat),
    s.queue = c :: rest → fa ≠ fb →
    exec (mk fa fb p) s = .next (s.answered rest (Response.failed .lengthMismatch))) ∧
  (∀ (s : State) (c : Command) (rest : List Command) (f' : Family) (p : Nat),
    s.queue = c :: rest →
    ∃ y : Port, exec (mk f' f' p) s =
        .next (s.answered rest
          { st := .ok, fr := f', hr := false, plen := 0, y := y, addr := 0, net := 0, mask := 0,
            first := 0, last := 0 }) ∧
      (∀ i, i < f'.len → lane y i = f (lane c.a i) (lane c.b i)) ∧ zeroFrom f'.len y)

/-- What a `ByteOp` command answers, as `Y`, to two operands of family `fam`. -/
def answersY (cfg : Config) (i : Instr) (a b : Port) (fam : Family) (y : Port) : Prop :=
  respond cfg { cw := encode i, a := a, b := b } =
    some { st := .ok, fr := fam, hr := false, plen := 0, y := y, addr := 0, net := 0, mask := 0,
           first := 0, last := 0 }

end Sys2Proof.Machine
end

