-- ==== Sys2Proof/Certificates/Slice0/Obligations.lean ====
section
/-! DEFINITION. What is stated of the IPMU, for the provers. -/

open Sys2Proof Sys2Proof.Machine

/-! ## Encoding -/

/-- The table of R59, which the spec marks as derived: every control word of it is the word of its
command, which is canonical, and decodes to it; the last one, `CMP v4, 22` with `RSV` = 001, decodes to
no instruction (log entry 7). -/
def Obligations.ControlWordsOfTheTable : Prop :=
  (∀ row ∈ ([(.band .v4 .v4 0, 0x0000#16), (.band .v6 .v6 0, 0x1800#16),
      (.band .v6 .v4 0, 0x1000#16), (.bor .v4 .v4 0, 0x2000#16), (.bxor .v4 .v4 0, 0x4000#16),
      (.bxor .v6 .v6 0, 0x5800#16), (.reserved3 .v4 .v4 0, 0x6000#16), (.mfp .v4 .v4 22, 0x8016#16),
      (.mfp .v6 .v4 61, 0x903D#16), (.pfm .v4 .v4 0, 0xA000#16), (.pfm .v4 .v6 0, 0xA800#16),
      (.cmp .v4 .v4 22, 0xC016#16), (.cmp .v6 .v4 64, 0xD040#16), (.cmpm .v4 .v4 0, 0xE000#16),
      (.cmpm .v6 .v6 0, 0xF800#16)] : List (Instr × ControlWord)),
    encode row.1 = row.2 ∧ decode row.2 = .ok row.1 ∧ row.1.canonical = row.1) ∧
  decode 0xC116#16 = .error (.reservedBitsSet 1#3)

/-- The table of R60, which the spec marks as derived: its status words, for the results of the commands
it names. -/
def Obligations.StatusWordsOfTheTable : Prop :=
  (∀ y, (Result.bytes .v4 y).toResponse.sw = 0x0000#16) ∧
  (∀ m, (Result.maskOut .v4 m).toResponse.sw = 0x0000#16) ∧
  (∀ y, (Result.bytes .v6 y).toResponse.sw = 0x1000#16) ∧
  (∀ m, (Result.maskOut .v6 m).toResponse.sw = 0x1000#16) ∧
  (Result.prefixLen .v4 22).toResponse.sw = 0x0016#16 ∧
  (∀ a n m r, (Result.info ⟨.v4, a, n, m, 22, some r⟩).toResponse.sw = 0x0816#16) ∧
  (∀ a n m, (Result.info ⟨.v4, a, n, m, 31, none⟩).toResponse.sw = 0x001F#16) ∧
  (∀ a n m r, (Result.info ⟨.v6, a, n, m, 64, some r⟩).toResponse.sw = 0x1840#16) ∧
  (∀ a n m, (Result.info ⟨.v6, a, n, m, 128, none⟩).toResponse.sw = 0x1080#16) ∧
  (Result.error .prefixOutOfRange).toResponse.sw = 0x6000#16 ∧
  (Result.error .invalidSubnetMask).toResponse.sw = 0x8000#16 ∧
  (Result.error .lengthMismatch).toResponse.sw = 0xA000#16 ∧
  (Result.error .illegalOperation).toResponse.sw = 0xC000#16

/-- From R50, R53 and R54: decoding the word of a well-formed instruction gives it back, with every
field at every value, the ignored fields too (log entry 8). -/
def Obligations.DecodeOfEncode : Prop :=
  ∀ i : Instr, i.wellFormed = true → decode (encode i) = .ok i

/-- From R50, R53 and R54, by the model's choice that an instruction keeps the fields its command
ignores (log entry 8): a control word that decodes is the word of the instruction it decodes to, which
is well formed. Several words still spell one command (R55). -/
def Obligations.EncodeOfDecode : Prop :=
  ∀ (cw : ControlWord) (i : Instr), decode cw = .ok i → encode i = cw ∧ i.wellFormed = true

/-- R50, R53: each field of an instruction stands at its bits of the control word, and `RSV` is zero. -/
def Obligations.ControlWordFields : Prop :=
  ∀ i : Instr, i.wellFormed = true →
    (encode i).extractLsb' 13 3 = i.opcode ∧
    (encode i).getLsbD 12 = i.faTag.tag ∧
    (encode i).getLsbD 11 = i.fbTag.tag ∧
    (encode i).extractLsb' 8 3 = 0#3 ∧
    ((encode i).extractLsb' 0 8).toNat = i.pField

/-- R52: a control word decodes to a row's instruction exactly when its bits under the mask `0xE700` are
the row's match, `OP << 13`. -/
def Obligations.OpcodeMapIsMaskAndMatch : Prop :=
  ∀ cw : ControlWord,
    (cw &&& 0xE700#16 = 0x0000#16 ↔ ∃ fa fb p, decode cw = .ok (.band fa fb p)) ∧
    (cw &&& 0xE700#16 = 0x2000#16 ↔ ∃ fa fb p, decode cw = .ok (.bor fa fb p)) ∧
    (cw &&& 0xE700#16 = 0x4000#16 ↔ ∃ fa fb p, decode cw = .ok (.bxor fa fb p)) ∧
    (cw &&& 0xE700#16 = 0x6000#16 ↔ ∃ fa fb p, decode cw = .ok (.reserved3 fa fb p)) ∧
    (cw &&& 0xE700#16 = 0x8000#16 ↔ ∃ fa fb p, decode cw = .ok (.mfp fa fb p)) ∧
    (cw &&& 0xE700#16 = 0xA000#16 ↔ ∃ fa fb p, decode cw = .ok (.pfm fa fb p)) ∧
    (cw &&& 0xE700#16 = 0xC000#16 ↔ ∃ fa fb p, decode cw = .ok (.cmp fa fb p)) ∧
    (cw &&& 0xE700#16 = 0xE000#16 ↔ ∃ fa fb p, decode cw = .ok (.cmpm fa fb p))

/-- R55: the canonical form of an instruction has every ignored field zero, is well formed when the
instruction is, and the machine answers it as it answers the instruction. -/
def Obligations.CanonicalFormMeansTheSame : Prop :=
  ∀ i : Instr, i.wellFormed = true →
    i.canonical.wellFormed = true ∧ i.canonical.canonical = i.canonical ∧
    decode (encode i.canonical) = .ok i.canonical ∧
    ((readSet i.opcode).fa = false → i.canonical.faTag = .v4) ∧
    ((readSet i.opcode).fb = false → i.canonical.fbTag = .v4) ∧
    ((readSet i.opcode).p = false → i.canonical.pField = 0) ∧
    ∀ s : State, exec i.canonical s = exec i s

/-- R51: where the fields of a response stand in its status word. -/
def Obligations.StatusWordFields : Prop :=
  ∀ r : Response,
    r.sw.extractLsb' 13 3 = r.st.code ∧ r.sw.getLsbD 12 = r.fr.tag ∧ r.sw.getLsbD 11 = r.hr ∧
    r.sw.extractLsb' 8 3 = 0#3 ∧ r.sw.extractLsb' 0 8 = r.plen

/-- From R111, its codes only: the code values; different kinds have different codes; the unit's codes
are never 1, 2 or 7, and 1 and 2 are the host's. -/
def Obligations.StatusCodesAreDistinct : Prop :=
  Status.code .ok = 0#3 ∧ HostError.code .invalidAddress = 1#3 ∧
  HostError.code .invalidPrefixLength = 2#3 ∧ ErrorKind.code .prefixOutOfRange = 3#3 ∧
  ErrorKind.code .invalidSubnetMask = 4#3 ∧ ErrorKind.code .lengthMismatch = 5#3 ∧
  ErrorKind.code .illegalOperation = 6#3 ∧
  (∀ a b : Status, a.code = b.code → a = b) ∧
  (∀ a : Status, a.code ≠ 1#3 ∧ a.code ≠ 2#3 ∧ a.code ≠ 7#3)

/-! ## Lanes and byte order -/

/-- R43: lane `i` is port bits `[127 - 8*i : 120 - 8*i]`, bit 7 of the byte the higher port bit; a `V6`
port value is the address as a big-endian number and a `V4` one the 32-bit number shifted left by 96;
port bits `[95:0]` of a `V4` input are ignored; and the rule's example. -/
def Obligations.LanesOnThePorts : Prop :=
  (∀ (x : Port) (i j : Nat), i < 16 → j < 8 →
    (lane x i).getLsbD j = x.getLsbD (120 - 8 * i + j)) ∧
  (∀ bs : List Byte, bs.length = 16 → (portOf bs).toNat = bytesValue bs) ∧
  (∀ bs : List Byte, bs.length = 4 → (portOf bs).toNat = bytesValue bs * 2 ^ 96) ∧
  (∀ x y : Port, x.extractLsb' 96 32 = y.extractLsb' 96 32 → bytesOf .v4 x = bytesOf .v4 y) ∧
  portOf [10#8, 152#8, 17#8, 240#8] = 0x0A9811F0000000000000000000000000#128

/-- From R27 and R30: an operand read from a port and put on a port again keeps the lanes that belong to
it and is zero in every other lane; and a byte sequence of a family's length is read back as it was put.
-/
def Obligations.OperandRoundTrip : Prop :=
  (∀ (f : Family) (x : Port),
    sameLanes f.len (portOf (bytesOf f x)) x ∧ zeroFrom f.len (portOf (bytesOf f x))) ∧
  (∀ (f : Family) (bs : List Byte), bs.length = f.len → bytesOf f (portOf bs) = bs)

/-- R21: two Addresses of one length are equal when every byte is equal, and their order is decided at
the lowest byte index where they differ, as unsigned bytes; between different lengths there is none. -/
def Obligations.AddressOrderIsByteWise : Prop :=
  ∀ a b : List Byte,
    (a.length = b.length →
      (a = b ↔ ∀ i, i < a.length → a.getD i 0#8 = b.getD i 0#8) ∧
      (addressLess a b = some true ↔
        ∃ i, i < a.length ∧ (∀ j, j < i → a.getD j 0#8 = b.getD j 0#8) ∧
          (a.getD i 0#8).toNat < (b.getD i 0#8).toNat) ∧
      (addressLess a b = some true ∨ addressLess a b = some false)) ∧
    (a.length ≠ b.length → addressLess a b = none)

/-- From D7 and R43: a port read as a number orders as the Addresses on it do. -/
def Obligations.PortNumberOrdersAddresses : Prop :=
  ∀ (f : Family) (x y : Port),
    addressLess (bytesOf f x) (bytesOf f y) =
      some (decide (x.toNat / 2 ^ (128 - f.bitlen) < y.toNat / 2 ^ (128 - f.bitlen)))

/-- From R58 and R55: a written command carries the canonical word of its instruction, which decodes to
it, and its operands' bytes; every lane beyond an operand, and every port the command does not read, is
zero. -/
def Obligations.WrittenCommandsAreCanonical : Prop :=
  ∀ (f g : Family) (a b : List Byte) (p : Nat), a.length = f.len → b.length = g.len → p < 256 →
    (∃ c, writeBand a b = some c ∧ decode c.cw = .ok (.band f g 0) ∧
      c.operandA f = a ∧ zeroFrom f.len c.a ∧ c.operandB g = b ∧ zeroFrom g.len c.b) ∧
    (∃ c, writeBor a b = some c ∧ decode c.cw = .ok (.bor f g 0) ∧
      c.operandA f = a ∧ zeroFrom f.len c.a ∧ c.operandB g = b ∧ zeroFrom g.len c.b) ∧
    (∃ c, writeBxor a b = some c ∧ decode c.cw = .ok (.bxor f g 0) ∧
      c.operandA f = a ∧ zeroFrom f.len c.a ∧ c.operandB g = b ∧ zeroFrom g.len c.b) ∧
    (∃ c, writeMfp f p = some c ∧ decode c.cw = .ok (.mfp f .v4 p) ∧ c.a = 0 ∧ c.b = 0) ∧
    (∃ c, writePfm b = some c ∧ decode c.cw = .ok (.pfm .v4 g 0) ∧ c.a = 0 ∧
      c.operandB g = b ∧ zeroFrom g.len c.b) ∧
    (∃ c, writeCmp a p = some c ∧ decode c.cw = .ok (.cmp f .v4 p) ∧
      c.operandA f = a ∧ zeroFrom f.len c.a ∧ c.b = 0) ∧
    (∃ c, writeCmpm a b = some c ∧ decode c.cw = .ok (.cmpm f g 0) ∧
      c.operandA f = a ∧ zeroFrom f.len c.a ∧ c.operandB g = b ∧ zeroFrom g.len c.b)

/-! ## The machine -/

/-- From R8 and R54: a step with a command on the ports whose control word decodes runs exactly that
instruction; step adds nothing around exec. -/
def Obligations.StepRunsTheDecodedInstruction : Prop :=
  ∀ (s : State) (c : Command) (rest : List Command) (i : Instr),
    s.queue = c :: rest → decode c.cw = .ok i → step s = exec i s

/-- The model's own (log entries 1 and 9): the state with a fetch word runs the instruction of that word
next, and that step leaves the configuration and the commands after the first as they were. -/
def Obligations.FetchWordRunsNext : Prop :=
  ∀ (s : State) (nbits w : Nat) (i : Instr), decodeTableWord nbits w = some i →
    step (s.withFetchWord nbits w) = exec i (s.withFetchWord nbits w) ∧
    (∃ t, step (s.withFetchWord nbits w) = .next t ∧ t.config = s.config ∧
      t.queue = s.queue.tail)

/-- R56: a control word with `RSV /= 000`, whatever `OP` is, and one with `OP` = 3 are answered with
`IllegalOperation`, code 6, every other response field zero, and no other effect. -/
def Obligations.IllegalControlWordsAreAnswered : Prop :=
  ∀ (s : State) (c : Command) (rest : List Command), s.queue = c :: rest →
    (rsvField c.cw ≠ 0#3 ∨ opField c.cw = 3#3) →
    step s = .next (s.answered rest
      { st := .error .illegalOperation, fr := .v4, hr := false, plen := 0, y := 0, addr := 0,
        net := 0, mask := 0, first := 0, last := 0 }) ∧
    (Response.failed .illegalOperation).sw = 0xC000#16

/-- From R54: every control word with any operands has a defined response, `IllegalOperation` or that of
the command it selects; `RSV` is tested first, then `OP` selects. That a word with `RSV /= 000` is
refused by the decoder and answered by step, while one with `OP` = 3 decodes to an instruction, is the
model's reading (log entry 7, DEDUCED). -/
def Obligations.EveryControlWordIsAnswered : Prop :=
  ∀ (s : State) (c : Command) (rest : List Command), s.queue = c :: rest →
    (rsvField c.cw ≠ 0#3 →
      decode c.cw = .error (.reservedBitsSet (rsvField c.cw)) ∧
      step s = .next (s.answered rest (Response.failed .illegalOperation))) ∧
    (rsvField c.cw = 0#3 → ∃ i r, decode c.cw = .ok i ∧ i.opcode = opField c.cw ∧
      i.faTag = faField c.cw ∧ i.fbTag = fbField c.cw ∧ i.pField = pField c.cw ∧
      step s = exec i s ∧ step s = .next (s.answered rest r) ∧
      (opField c.cw = 3#3 → r = Response.failed .illegalOperation))

/-- From R32 to R34 and R41, in the model's own lists (log entries 1 and 2): a next state differs from
the state before by one command taken and one response delivered; the configuration, the commands after
it and the responses before it are as they were. -/
def Obligations.StepTakesOneCommand : Prop :=
  (∀ s t : State, step s = .next t →
    t.config = s.config ∧ ∃ c r, s.queue = c :: t.queue ∧ t.responses = s.responses ++ [r]) ∧
  (∀ (i : Instr) (s t : State), exec i s = .next t →
    t.config = s.config ∧ ∃ c r, s.queue = c :: t.queue ∧ t.responses = s.responses ++ [r])

/-- The model's choice for R34 and R37 (log entry 3): with no command presented there is no step and no
response; in every other state there is a next state. -/
def Obligations.OnlyAnAbsentCommandStops : Prop :=
  (∀ s : State, s.queue = [] → step s = .fault .noCommand ∧ ∀ i, exec i s = .fault .noCommand) ∧
  (∀ s : State, s.queue ≠ [] →
    (∃ t, step s = .next t) ∧ ∀ i, ∃ t, exec i s = .next t)

/-- R37, R130, R131, with the model's own lists (log entries 1, 2, 4, 11): after reset no command is
presented and no response has a value, `STRICT_V6` has the default, and a reset changes no later answer.
-/
def Obligations.ResetHoldsNothing : Prop :=
  State.reset.config.strictV6 = false ∧ State.reset.queue = [] ∧ State.reset.responses = [] ∧
  (∀ cfg, (State.resetWith cfg).config = cfg ∧ (State.resetWith cfg).queue = [] ∧
    (State.resetWith cfg).responses = []) ∧
  State.reset = State.resetWith Config.initial ∧
  (∀ s : State, s.onReset.config = s.config ∧ step s.onReset = step s)

/-- The model's own (log entry 1), from R9 and R34: presenting a command adds it after the others and
changes nothing else, and it makes no difference whether it is presented before or after a step. -/
def Obligations.PresentingACommandWaitsItsTurn : Prop :=
  (∀ (s : State) (c : Command), (s.present c).config = s.config ∧
    (s.present c).responses = s.responses ∧ (s.present c).queue = s.queue ++ [c]) ∧
  (∀ (s t : State) (c : Command), step s = .next t → step (s.present c) = .next (t.present c))

/-- From R32: the response is a function of the command of the same transaction and of `STRICT_V6` only:
whatever was delivered before, and whatever comes after, it is what the unit answers alone. -/
def Obligations.ResponseDependsOnItsCommandOnly : Prop :=
  ∀ (s : State) (c : Command) (rest : List Command), s.queue = c :: rest →
    ∃ r, respond s.config c = some r ∧ step s = .next (s.answered rest r)

/-- R46, R118: a run to the end of the queue delivers one response per command, in order, each the
response of its command alone, whether commands before it failed or not. -/
def Obligations.RunAnswersEachCommandAsIfAlone : Prop :=
  ∀ s : State, ∃ rs : List Response,
    Host.Core.run Sys2Proof.core s.queue.length s =
      .next { config := s.config, queue := [], responses := s.responses ++ rs } ∧
    rs.map some = s.queue.map (respond s.config)

/-- R28, R27: a field that a command does not read, and a lane that belongs to no operand it reads, make
no difference to the response. -/
def Obligations.UnreadFieldsMakeNoDifference : Prop :=
  ∀ (cfg : Config) (c d : Command), agreeOnReads c d → respond cfg c = respond cfg d

/-- From R23, R30, R91 to R93 and R113: every step keeps every response delivered so far of the shape
the rules give a response, from any state in which they are so. -/
def Obligations.StepKeepsResponsesWellShaped : Prop :=
  ∀ s t : State, s.Good → step s = .next t → t.Good

/-- The state after reset, in which no response has been delivered (R37, log entry 2), is good, for
either configuration (log entry 4). -/
def Obligations.ResetIsGood : Prop :=
  State.reset.Good ∧ ∀ cfg, (State.resetWith cfg).Good

/-! ## The commands -/

/-- R71: `BAND`, with its corner cases and its example. -/
def Obligations.BandAndsLaneByLane : Prop :=
  byteOpCommand 0b000#3 Instr.band (fun x y => x &&& y) ∧
  (∀ (cfg : Config) (f : Family) (a b y : Port), answersY cfg (.band f f 0) a b f y →
    (sameLanes f.len b 0 → y = 0) ∧
    ((∀ i, i < f.len → lane b i = 0xFF#8) → sameLanes f.len y a) ∧
    (sameLanes f.len a b → sameLanes f.len y a)) ∧
  (∀ cfg, answersY cfg (.band .v4 .v4 0) (portOf [10#8, 152#8, 17#8, 240#8])
    (portOf [255#8, 255#8, 252#8, 0#8]) .v4 (portOf [10#8, 152#8, 16#8, 0#8]))

/-- R72: `BOR`, with its corner cases and its example. -/
def Obligations.BorOrsLaneByLane : Prop :=
  byteOpCommand 0b001#3 Instr.bor (fun x y => x ||| y) ∧
  (∀ (cfg : Config) (f : Family) (a b y : Port), answersY cfg (.bor f f 0) a b f y →
    (sameLanes f.len b 0 → sameLanes f.len y a) ∧
    ((∀ i, i < f.len → lane b i = 0xFF#8) → ∀ i, i < f.len → lane y i = 0xFF#8) ∧
    (sameLanes f.len a b → sameLanes f.len y a)) ∧
  (∀ cfg, answersY cfg (.bor .v4 .v4 0) (portOf [10#8, 152#8, 16#8, 0#8])
    (portOf [0#8, 0#8, 3#8, 255#8]) .v4 (portOf [10#8, 152#8, 19#8, 255#8]))

/-- R73: `BXOR`, with its corner cases and its example. -/
def Obligations.BxorXorsLaneByLane : Prop :=
  byteOpCommand 0b010#3 Instr.bxor (fun x y => x ^^^ y) ∧
  (∀ (cfg : Config) (f : Family) (a b y : Port), answersY cfg (.bxor f f 0) a b f y →
    (sameLanes f.len b 0 → sameLanes f.len y a) ∧
    ((∀ i, i < f.len → lane b i = 0xFF#8) → ∀ i, i < f.len → lane y i = ~~~ lane a i) ∧
    (sameLanes f.len a b → y = 0)) ∧
  (∀ cfg, answersY cfg (.bxor .v4 .v4 0) (portOf [255#8, 255#8, 252#8, 0#8])
    (portOf [255#8, 255#8, 255#8, 255#8]) .v4 (portOf [0#8, 0#8, 3#8, 255#8]))

/-- R74: the `ByteOp` commands are commutative, errors included, and the two mask identities hold. -/
def Obligations.ByteOpLaws : Prop :=
  (∀ (s : State) (c : Command) (rest : List Command) (fa fb : Family) (p : Nat),
    s.queue = c :: rest →
    exec (.band fa fb p) s = exec (.band fb fa p) { s with queue := { c with a := c.b, b := c.a } :: rest } ∧
    exec (.bor fa fb p) s = exec (.bor fb fa p) { s with queue := { c with a := c.b, b := c.a } :: rest } ∧
    exec (.bxor fa fb p) s = exec (.bxor fb fa p) { s with queue := { c with a := c.b, b := c.a } :: rest }) ∧
  (∀ (cfg : Config) (f : Family) (a : Port),
    answersY cfg (.band f f 0) a (portOf (maskFromPrefix 0 f.len)) f 0 ∧
    answersY cfg (.band f f 0) a (portOf (maskFromPrefix f.bitlen f.len)) f (portOf (bytesOf f a)))

/-- From R56 (b), as an instruction of its own (log entry 7): the reserved `OP` = 3 completes with
`IllegalOperation`, whatever its other fields and the operands are. -/
def Obligations.ReservedOpAnswersIllegalOperation : Prop :=
  ∀ (s : State) (c : Command) (rest : List Command) (fa fb : Family) (p : Nat),
    s.queue = c :: rest →
    exec (.reserved3 fa fb p) s = .next (s.answered rest (Response.failed .illegalOperation))

/-- R82: `MFP`, with its encoding, its errors, its answer lane by lane, whatever `STRICT_V6` is, and its
example. -/
def Obligations.MfpExpandsAPrefixLength : Prop :=
  (∀ (fa fb : Family) (p : BitVec 8),
    decode (controlWord 0b100#3 fa fb 0#3 p) = .ok (.mfp fa fb p.toNat)) ∧
  (∀ (s : State) (c : Command) (rest : List Command) (fa fb : Family) (rsv : BitVec 3) (p : BitVec 8),
    s.queue = c :: rest → c.cw = controlWord 0b100#3 fa fb rsv p → rsv ≠ 0#3 →
    step s = .next (s.answered rest (Response.failed .illegalOperation))) ∧
  (∀ (s : State) (c : Command) (rest : List Command) (fa fb : Family) (p : Nat),
    s.queue = c :: rest → p > fa.bitlen →
    exec (.mfp fa fb p) s = .next (s.answered rest (Response.failed .prefixOutOfRange))) ∧
  (∀ (s : State) (c : Command) (rest : List Command) (fa fb : Family) (p : Nat),
    s.queue = c :: rest → p ≤ fa.bitlen →
    ∃ m : Port, exec (.mfp fa fb p) s =
        .next (s.answered rest
          { st := .ok, fr := fa, hr := false, plen := 0, y := 0, addr := 0, net := 0, mask := m,
            first := 0, last := 0 }) ∧
      (∀ i, i < fa.len → lane m i =
        if p ≥ (i + 1) * 8 then 0xFF#8
        else if p > i * 8 then BitVec.ofNat 8 ((0xFF <<< ((i + 1) * 8 - p)) % 256)
        else 0x00#8) ∧ zeroFrom fa.len m) ∧
  (∀ cfg a b, respond cfg { cw := 0x8016#16, a := a, b := b } =
    some { st := .ok, fr := .v4, hr := false, plen := 0, y := 0, addr := 0, net := 0,
           mask := portOf [255#8, 255#8, 252#8, 0#8], first := 0, last := 0 })

/-- R84: `PFM`, with its encoding, its errors and its answer: the sum over the lanes of the operand,
which of canonical bytes is the number of 1-bits; and its two examples. -/
def Obligations.PfmReducesAMask : Prop :=
  (∀ (fa fb : Family) (p : BitVec 8),
    decode (controlWord 0b101#3 fa fb 0#3 p) = .ok (.pfm fa fb p.toNat)) ∧
  (∀ (s : State) (c : Command) (rest : List Command) (fa fb : Family) (rsv : BitVec 3) (p : BitVec 8),
    s.queue = c :: rest → c.cw = controlWord 0b101#3 fa fb rsv p → rsv ≠ 0#3 →
    step s = .next (s.answered rest (Response.failed .illegalOperation))) ∧
  (∀ (s : State) (c : Command) (rest : List Command) (fa fb : Family) (p : Nat),
    s.queue = c :: rest → lanesCanonical fb.len c.b = false →
    exec (.pfm fa fb p) s = .next (s.answered rest (Response.failed .invalidSubnetMask))) ∧
  (∀ (s : State) (c : Command) (rest : List Command) (fa fb : Family) (p : Nat),
    s.queue = c :: rest → lanesCanonical fb.len c.b = true →
    exec (.pfm fa fb p) s =
        .next (s.answered rest
          { st := .ok, fr := fb, hr := false, plen := BitVec.ofNat 8 (onesInLanes fb.len c.b),
            y := 0, addr := 0, net := 0, mask := 0, first := 0, last := 0 }) ∧
      onesInLanes fb.len c.b ≤ fb.bitlen) ∧
  (∀ cfg a, respond cfg { cw := 0xA000#16, a := a, b := portOf [255#8, 255#8, 252#8, 0#8] } =
    some { st := .ok, fr := .v4, hr := false, plen := 22, y := 0, addr := 0, net := 0, mask := 0,
           first := 0, last := 0 }) ∧
  (∀ cfg a, respond cfg { cw := 0xA000#16, a := a, b := portOf [255#8, 255#8, 255#8, 85#8] } =
    some (Response.failed .invalidSubnetMask))

/-- R95: `CMP`, with its encoding, its errors, its answer lane by lane, and its example. -/
def Obligations.CmpComputesSubnetInfo : Prop :=
  (∀ (fa fb : Family) (p : BitVec 8),
    decode (controlWord 0b110#3 fa fb 0#3 p) = .ok (.cmp fa fb p.toNat)) ∧
  (∀ (s : State) (c : Command) (rest : List Command) (fa fb : Family) (rsv : BitVec 3) (p : BitVec 8),
    s.queue = c :: rest → c.cw = controlWord 0b110#3 fa fb rsv p → rsv ≠ 0#3 →
    step s = .next (s.answered rest (Response.failed .illegalOperation))) ∧
  (∀ (s : State) (c : Command) (rest : List Command) (fa fb : Family) (p : Nat),
    s.queue = c :: rest →
    p > fa.bitlen ∨ (s.config.strictV6 = true ∧ fa = .v6 ∧ p > 126) →
    exec (.cmp fa fb p) s = .next (s.answered rest (Response.failed .prefixOutOfRange))) ∧
  (∀ (s : State) (c : Command) (rest : List Command) (fa fb : Family) (p : Nat),
    s.queue = c :: rest → p ≤ fa.bitlen → ¬ (s.config.strictV6 = true ∧ fa = .v6 ∧ p > 126) →
    ∃ r, exec (.cmp fa fb p) s = .next (s.answered rest r) ∧ CarriesSubnet r fa c.a p) ∧
  (∀ cfg b, respond cfg { cw := 0xC016#16, a := portOf [10#8, 152#8, 17#8, 240#8], b := b } =
    some { st := .ok, fr := .v4, hr := true, plen := 22, y := 0
           addr := portOf [10#8, 152#8, 17#8, 240#8], net := portOf [10#8, 152#8, 16#8, 0#8]
           mask := portOf [255#8, 255#8, 252#8, 0#8], first := portOf [10#8, 152#8, 16#8, 1#8]
           last := portOf [10#8, 152#8, 19#8, 254#8] })

/-- R96: `CMPM`, with its encoding, its errors in their order, its answer lane by lane for the derived
prefix length, and its example. -/
def Obligations.CmpmComputesFromAMask : Prop :=
  (∀ (fa fb : Family) (p : BitVec 8),
    decode (controlWord 0b111#3 fa fb 0#3 p) = .ok (.cmpm fa fb p.toNat)) ∧
  (∀ (s : State) (c : Command) (rest : List Command) (fa fb : Family) (rsv : BitVec 3) (p : BitVec 8),
    s.queue = c :: rest → c.cw = controlWord 0b111#3 fa fb rsv p → rsv ≠ 0#3 →
    step s = .next (s.answered rest (Response.failed .illegalOperation))) ∧
  (∀ (s : State) (c : Command) (rest : List Command) (fa fb : Family) (q : Nat),
    s.queue = c :: rest → fa ≠ fb →
    exec (.cmpm fa fb q) s = .next (s.answered rest (Response.failed .lengthMismatch))) ∧
  (∀ (s : State) (c : Command) (rest : List Command) (f : Family) (q : Nat),
    s.queue = c :: rest → lanesCanonical f.len c.b = false →
    exec (.cmpm f f q) s = .next (s.answered rest (Response.failed .invalidSubnetMask))) ∧
  (∀ (s : State) (c : Command) (rest : List Command) (f : Family) (q : Nat),
    s.queue = c :: rest → lanesCanonical f.len c.b = true →
    s.config.strictV6 = true → f = .v6 → onesInLanes f.len c.b > 126 →
    exec (.cmpm f f q) s = .next (s.answered rest (Response.failed .prefixOutOfRange))) ∧
  (∀ (s : State) (c : Command) (rest : List Command) (f : Family) (q : Nat),
    s.queue = c :: rest → lanesCanonical f.len c.b = true →
    ¬ (s.config.strictV6 = true ∧ f = .v6 ∧ onesInLanes f.len c.b > 126) →
    ∃ r, exec (.cmpm f f q) s = .next (s.answered rest r) ∧
      CarriesSubnet r f c.a (onesInLanes f.len c.b)) ∧
  (∀ cfg, respond cfg { cw := 0xE000#16, a := portOf [10#8, 152#8, 17#8, 240#8]
                        b := portOf [255#8, 255#8, 252#8, 0#8] } =
    respond cfg { cw := 0xC016#16, a := portOf [10#8, 152#8, 17#8, 240#8], b := 0 })

/-- From R96: `CMPM` on a mask whose derived prefix length is `p` answers what `CMP` answers with `p`.
-/
def Obligations.CmpmDelegatesToCmp : Prop :=
  ∀ (s : State) (c : Command) (rest : List Command) (f fb : Family) (p q : Nat),
    s.queue = c :: rest → prefixFromMask (c.operandB f) = .ok p →
    exec (.cmpm f f q) s = exec (.cmp f fb p) s

/-! ## Masks and prefix lengths -/

/-- From R81 and R23; the spec marks the closed form as derived: the mask of a prefix length has its
first `p` bits 1 and the rest 0, every byte is canonical, and the closed form by `p div 8` and `p mod 8`
holds. -/
def Obligations.MaskIsLeadingOnes : Prop :=
  ∀ (f : Family) (p : Nat), p ≤ f.bitlen →
    (maskFromPrefix p f.len).length = f.len ∧
    hasLeadingOnes (maskFromPrefix p f.len) p ∧
    (∀ b ∈ maskFromPrefix p f.len, isCanonicalByte b = true) ∧
    (∀ i, i < f.len → (maskFromPrefix p f.len).getD i 0#8 =
      if i < p / 8 then 0xFF#8
      else if i = p / 8 then
        [0x00#8, 0x80#8, 0xC0#8, 0xE0#8, 0xF0#8, 0xF8#8, 0xFC#8, 0xFE#8].getD (p % 8) 0
      else 0x00#8)

/-- R83: the contribution of a byte: the nine canonical bytes contribute 0 to 8, as the formula `8 -
log2(1 + (b XOR 0xFF))` gives, and no other byte contributes; a mask is reduced to the sum, or refused
when a byte is not canonical; gaps across bytes pass. -/
def Obligations.MaskBytesContribute : Prop :=
  (∀ b : Byte, contribution b =
    if isCanonicalByte b then some (8 - Nat.log2 (1 + (b ^^^ 0xFF#8).toNat)) else none) ∧
  (∀ b : Byte, isCanonicalByte b = true → contribution b = some (onesIn b)) ∧
  (∀ m : List Byte, m.all isCanonicalByte = true →
    prefixFromMask m = .ok (m.map onesIn).sum ∧ (m.map onesIn).sum ≤ 8 * m.length) ∧
  (∀ m : List Byte, m.all isCanonicalByte = false →
    prefixFromMask m = .error .invalidSubnetMask) ∧
  prefixFromMask [255#8, 0#8, 255#8, 0#8] = .ok 16 ∧
  prefixFromMask [128#8, 128#8, 0#8, 0#8] = .ok 2 ∧
  prefixFromMask [254#8, 255#8, 0#8, 0#8] = .ok 15

/-- R86, which the spec marks as derived: expanding and reducing round-trips for every prefix length;
reducing and expanding gives the mask back exactly when it is a contiguous run of 1-bits from the first
bit; in commands, `PFM` of the `MASK` of `MFP f, p` gives `PLEN = p`. -/
def Obligations.MaskRoundTrip : Prop :=
  (∀ (f : Family) (p : Nat), p ≤ f.bitlen → prefixFromMask (maskFromPrefix p f.len) = .ok p) ∧
  (∀ (f : Family) (m : List Byte) (s : Nat), m.length = f.len → prefixFromMask m = .ok s →
    (maskFromPrefix s f.len = m ↔ ∃ q, q ≤ f.bitlen ∧ hasLeadingOnes m q)) ∧
  (∀ (cfg : Config) (f : Family) (p : Nat) (a b a' : Port) (r : Response), p ≤ f.bitlen →
    respond cfg { cw := encode (.mfp f .v4 p), a := a, b := b } = some r →
    ∃ r', respond cfg { cw := encode (.pfm .v4 f 0), a := a', b := r.mask } = some r' ∧
      r'.st = .ok ∧ r'.plen.toNat = p) ∧
  prefixFromMask [255#8, 0#8, 255#8, 0#8] = .ok 16 ∧
  maskFromPrefix 16 4 = [255#8, 255#8, 0#8, 0#8]

/-! ## The host range -/

/-- From R91, whose equivalences the spec marks as derived: a subnet has a usable range exactly when its
prefix length leaves two host bits, exactly when bits 1 and 0 of the last mask byte are both 0. -/
def Obligations.UsableMeansTwoHostBits : Prop :=
  ∀ (f : Family) (p : Nat), p ≤ f.bitlen →
    (usable (maskFromPrefix p f.len) = true ↔
      ((maskFromPrefix p f.len).getD (f.len - 1) 0#8).toNat ≤ 0xFC) ∧
    (usable (maskFromPrefix p f.len) = true ↔ p ≤ f.bitlen - 2) ∧
    (usable (maskFromPrefix p f.len) = true ↔
      ((maskFromPrefix p f.len).getD (f.len - 1) 0#8).extractLsb' 0 2 = 0#2)

/-- R97, which the spec marks as derived: when the range is usable, the last bytes that are adjusted are
far from overflowing. -/
def Obligations.LastByteCannotOverflow : Prop :=
  ∀ (f : Family) (a : List Byte) (p : Nat), a.length = f.len → p ≤ f.bitlen - 2 →
    let mask := maskFromPrefix p f.len
    let network := networkOf a mask
    let broadcast := broadcastOf network mask
    let n := f.len - 1
    (network.getD n 0#8).toNat ≤ 0xFC ∧ 0x03 ≤ (broadcast.getD n 0#8).toNat ∧
    ∃ first last, hostRange network mask = some (first, last) ∧
      (first.getD n 0#8).toNat = (network.getD n 0#8).toNat + 1 ∧ (first.getD n 0#8).toNat ≤ 0xFD ∧
      (first.getD n 0#8).extractLsb' 0 2 = 1#2 ∧
      (last.getD n 0#8).toNat + 1 = (broadcast.getD n 0#8).toNat ∧ 0x02 ≤ (last.getD n 0#8).toNat ∧
      (last.getD n 0#8).extractLsb' 0 2 = 2#2

/-- R99: under the same condition the single-byte adjustment gives what a full-width, carrying increment
of the network address and decrement of the broadcast address give. -/
def Obligations.SingleByteEqualsFullWidth : Prop :=
  ∀ (f : Family) (a : List Byte) (p : Nat) (first last : List Byte),
    a.length = f.len → p ≤ f.bitlen →
    (compute a f p).range = some (first, last) →
    first.length = f.len ∧ last.length = f.len ∧
    bytesValue first = bytesValue (compute a f p).network + 1 ∧
    bytesValue last + 1 =
      bytesValue (broadcastOf (compute a f p).network (compute a f p).mask)

/-- The usable host addresses lie strictly between the network address and the broadcast address, in
order, and in the same subnet (from R21, R90, R92). -/
def Obligations.HostRangeLiesInsideTheSubnet : Prop :=
  ∀ (f : Family) (a : List Byte) (p : Nat) (first last : List Byte),
    a.length = f.len → p ≤ f.bitlen →
    (compute a f p).range = some (first, last) →
    addressLess (compute a f p).network first = some true ∧
    addressLess first last = some true ∧
    addressLess last (broadcastOf (compute a f p).network (compute a f p).mask) = some true ∧
    networkOf first (compute a f p).mask = (compute a f p).network ∧
    networkOf last (compute a f p).mask = (compute a f p).network

/-- R98: in commands: `BAND` of the `NET` and `MASK` of a successful `CMP` gives `Y = NET`, and `BAND`
of `NET` with the complement of `MASK` gives `Y` all zero. -/
def Obligations.NetworkAddressIsMasked : Prop :=
  ∀ (cfg : Config) (f fb : Family) (p : Nat) (a b : Port) (r : Response), p < 256 →
    respond cfg { cw := encode (.cmp f fb p), a := a, b := b } = some r → r.st = .ok →
    answersY cfg (.band f f 0) r.net r.mask f r.net ∧
    ∀ m : Port, (∀ i, i < f.len → lane m i = lane r.mask i ^^^ 0xFF#8) →
      answersY cfg (.band f f 0) r.net m f 0

/-- R100: `HR`, `FIRST` and `LAST` are functions of `NET` and `MASK` alone, and two `CMP` commands of
one family and prefix length whose addresses differ only in host bits differ in the answer only in
`ADDR`. -/
def Obligations.RangeIgnoresHostBits : Prop :=
  (∀ (cfg : Config) (f fb fb' : Family) (p : Nat) (a a' b b' : Port) (r r' : Response), p ≤ f.bitlen →
    (∀ i, i < f.len → lane a i &&& maskByte p i = lane a' i &&& maskByte p i) →
    respond cfg { cw := encode (.cmp f fb p), a := a, b := b } = some r →
    respond cfg { cw := encode (.cmp f fb' p), a := a', b := b' } = some r' →
    { r with addr := 0 } = { r' with addr := 0 }) ∧
  (∀ (cfg cfg' : Config) (f fb fb' : Family) (p p' : Nat) (a a' b b' : Port) (r r' : Response),
    p < 256 → p' < 256 →
    respond cfg { cw := encode (.cmp f fb p), a := a, b := b } = some r →
    respond cfg' { cw := encode (.cmp f fb' p'), a := a', b := b' } = some r' →
    r.st = .ok → r'.st = .ok → r.net = r'.net → r.mask = r'.mask →
    r.hr = r'.hr ∧ r.first = r'.first ∧ r.last = r'.last)

/-- The table of R101, which the spec marks as derived: the answer of `CMP` by family, prefix length and
`STRICT_V6`. -/
def Obligations.BoundaryTable : Prop :=
  ∀ (cfg : Config) (f fb : Family) (p : Nat) (a b : Port), p < 256 →
    ∃ r, respond cfg { cw := encode (.cmp f fb p), a := a, b := b } = some r ∧
      (f = .v4 → p ≤ 30 → r.st = .ok ∧ r.hr = true) ∧
      (f = .v4 → 31 ≤ p → p ≤ 32 → r.st = .ok ∧ r.hr = false) ∧
      (f = .v4 → 33 ≤ p → r.st = .error .prefixOutOfRange) ∧
      (f = .v6 → p ≤ 126 → r.st = .ok ∧ r.hr = true) ∧
      (f = .v6 → 127 ≤ p → p ≤ 128 →
        if cfg.strictV6 then r.st = .error .prefixOutOfRange else r.st = .ok ∧ r.hr = false) ∧
      (f = .v6 → 129 ≤ p → r.st = .error .prefixOutOfRange)

/-! ## Errors and the response -/

/-- From R114 and R112, whose table the spec marks as derived: a command fails exactly on the conditions
of the table, and reports the first of them in the order of priority. -/
def Obligations.ErrorsAreExactlyTheTable : Prop :=
  ∀ (cfg : Config) (c : Command), ∃ r, respond cfg c = some r ∧
    r.st = (match firstError cfg c with
      | some k => .error k
      | none => .ok)

/-- R113: when a command raises an error, every other response field is zero. -/
def Obligations.ErrorResponseIsAllZero : Prop :=
  ∀ (cfg : Config) (c : Command) (r : Response) (k : ErrorKind),
    respond cfg c = some r → r.st = .error k →
    r = { st := .error k, fr := .v4, hr := false, plen := 0, y := 0, addr := 0, net := 0, mask := 0,
          first := 0, last := 0 } ∧
    r.sw.extractLsb' 13 3 = k.code ∧ r.sw.extractLsb' 0 13 = 0#13

/-- R30: the fields each command writes when it succeeds; every field not listed is zero in all its
bits, and lanes at and above `len(FR)` are 0x00; when a command fails every field but `ST` is zero. -/
def Obligations.FieldsWrittenOnSuccess : Prop :=
  (∀ (cfg : Config) (c : Command) (r : Response) (k : ErrorKind), respond cfg c = some r →
    r.st = .error k → r = { Response.zero with st := .error k }) ∧
  ∀ (cfg : Config) (c : Command) (r : Response), respond cfg c = some r → r.st = .ok →
    (opField c.cw = 0#3 ∨ opField c.cw = 1#3 ∨ opField c.cw = 2#3 →
      r.fr = faField c.cw ∧ r = { Response.zero with fr := r.fr, y := r.y } ∧
      zeroFrom r.fr.len r.y) ∧
    (opField c.cw = 4#3 → r.fr = faField c.cw ∧
      r = { Response.zero with fr := r.fr, mask := r.mask } ∧ zeroFrom r.fr.len r.mask) ∧
    (opField c.cw = 5#3 → r.fr = fbField c.cw ∧
      r = { Response.zero with fr := r.fr, plen := r.plen }) ∧
    (opField c.cw = 6#3 ∨ opField c.cw = 7#3 → r.fr = faField c.cw ∧ r.y = 0 ∧
      zeroFrom r.fr.len r.addr ∧ zeroFrom r.fr.len r.net ∧ zeroFrom r.fr.len r.mask ∧
      zeroFrom r.fr.len r.first ∧ zeroFrom r.fr.len r.last ∧
      (r.hr = false → r.first = 0 ∧ r.last = 0))

/-- R31, which the spec marks as derived: for every response the unit can produce, the flat bundle and
the tagged value carry the same information: the value the host reads from the bundle and the `OP` it
sent is well typed and gives the bundle back. -/
def Obligations.FlatAndTaggedResponsesAgree : Prop :=
  ∀ (cfg : Config) (c : Command) (i : Instr) (r : Response),
    decode c.cw = .ok i → respond cfg c = some r →
    (r.read i).wellTyped ∧ (r.read i).toResponse = r
end

