-- ==== Sys2Proof/Laws/Lanes.lean ====
section
/-! SUPPORT. Reading a lane of a port made of lanes, and ports that agree lane by lane. -/

namespace Sys2Proof

@[simp] theorem Family.len_v4 : Family.len .v4 = 4 := rfl
@[simp] theorem Family.len_v6 : Family.len .v6 = 16 := rfl
@[simp] theorem Family.bitlen_v4 : Family.bitlen .v4 = 32 := rfl
@[simp] theorem Family.bitlen_v6 : Family.bitlen .v6 = 128 := rfl

theorem Family.len_le (f : Family) : f.len ≤ 16 := by cases f <;> decide
theorem Family.len_pos (f : Family) : 0 < f.len := by cases f <;> decide

end Sys2Proof

namespace Sys2Proof.Machine

theorem lane_getLsbD (x : Port) (i j : Nat) (hj : j < 8) :
    (lane x i).getLsbD j = x.getLsbD (120 - 8 * i + j) := by
  simp [lane, hj]

@[simp] theorem lane_zero (i : Nat) : lane 0#128 i = 0#8 := by
  apply BitVec.eq_of_getLsbD_eq
  intro j hj
  simp [lane]

@[simp] theorem lane_or (x y : Port) (i : Nat) : lane (x ||| y) i = lane x i ||| lane y i := by
  apply BitVec.eq_of_getLsbD_eq
  intro j hj
  simp [lane, hj]

@[simp] theorem lane_and (x y : Port) (i : Nat) : lane (x &&& y) i = lane x i &&& lane y i := by
  apply BitVec.eq_of_getLsbD_eq
  intro j hj
  simp [lane, hj]

@[simp] theorem lane_xor (x y : Port) (i : Nat) : lane (x ^^^ y) i = lane x i ^^^ lane y i := by
  apply BitVec.eq_of_getLsbD_eq
  intro j hj
  simp [lane, hj]

/-- Two ports with the same sixteen lanes are the same port. -/
theorem port_ext {x y : Port} (h : ∀ i, i < 16 → lane x i = lane y i) : x = y := by
  apply BitVec.eq_of_getLsbD_eq
  intro k hk
  have e := congrArg (fun b => b.getLsbD (k % 8)) (h (15 - k / 8) (by omega))
  simp only [lane_getLsbD _ _ _ (Nat.mod_lt k (by decide : 0 < 8))] at e
  have hk' : 120 - 8 * (15 - k / 8) + k % 8 = k := by omega
  rwa [hk'] at e

theorem lane_inLane (i j : Nat) (v : Byte) (hi : i < 16) (hj : j < 16) :
    lane (inLane i v) j = if j = i then v else 0#8 := by
  apply BitVec.eq_of_getLsbD_eq
  intro k hk
  rw [lane_getLsbD _ _ _ hk]
  simp only [inLane, BitVec.getLsbD_shiftLeft, BitVec.getLsbD_setWidth]
  by_cases h : j = i
  · subst h
    have h1 : 120 - 8 * j + k < 128 := by omega
    have h2 : k < 128 := by omega
    simp [h1, h2]
  · simp only [if_neg h]
    by_cases hlt : 120 - 8 * j + k < 120 - 8 * i
    · simp [hlt]
    · have : 8 ≤ 120 - 8 * j + k - (120 - 8 * i) := by omega
      simp [BitVec.getLsbD_of_ge v _ this]

/-- Lane `j` of a port filled from lane `i` up. -/
theorem lane_portFrom (bs : List Byte) (i j : Nat) (hlen : i + bs.length ≤ 16) (hj : j < 16) :
    lane (portFrom i bs) j = if i ≤ j then bs.getD (j - i) 0#8 else 0#8 := by
  induction bs generalizing i with
  | nil => simp [portFrom]
  | cons v vs ih =>
    simp only [List.length_cons] at hlen
    rw [portFrom, lane_or, lane_inLane i j v (by omega) hj, ih (i + 1) (by omega)]
    rcases Nat.lt_trichotomy j i with h | h | h
    · simp [Nat.ne_of_lt h, show ¬ i ≤ j by omega, show ¬ i + 1 ≤ j by omega]
    · subst h
      simp
    · have e : j - i = (j - (i + 1)) + 1 := by omega
      simp [show j ≠ i by omega, show i ≤ j by omega, show i + 1 ≤ j by omega, e]

/-- Lane `i` of a byte sequence put on a port: byte `i`, and 0x00 beyond its end. -/
theorem lane_portOf (bs : List Byte) (i : Nat) (hlen : bs.length ≤ 16) (hi : i < 16) :
    lane (portOf bs) i = bs.getD i 0#8 := by
  rw [portOf, lane_portFrom bs 0 i (by omega) hi]
  simp

@[simp] theorem bytesOf_length (f : Family) (x : Port) : (bytesOf f x).length = f.len := by
  simp [bytesOf]

theorem bytesOf_getElem (f : Family) (x : Port) (i : Nat) (h : i < (bytesOf f x).length) :
    (bytesOf f x)[i] = lane x i := by
  simp [bytesOf]

theorem bytesOf_getD (f : Family) (x : Port) (i : Nat) (h : i < f.len) :
    (bytesOf f x).getD i 0#8 = lane x i := by
  simp [bytesOf, h]

/-- Two operands of one family with the same lanes are the same byte sequence. -/
theorem bytesOf_congr {f : Family} {x y : Port} (h : ∀ i, i < f.len → lane x i = lane y i) :
    bytesOf f x = bytesOf f y := by
  apply List.map_congr_left
  intro i hi
  exact h i (List.mem_range.mp hi)

end Sys2Proof.Machine
end

