-- ==== Sys2Proof/Laws/State.lean ====
section
/-! SUPPORT. One lemma per field of State and update of it, so that no proof unfolds a record update. -/

namespace Sys2Proof.Machine

@[simp] theorem State.deliver_config (s : State) (r : Response) : (s.deliver r).config = s.config := rfl
@[simp] theorem State.deliver_queue (s : State) (r : Response) : (s.deliver r).queue = s.queue.tail := rfl
@[simp] theorem State.deliver_responses (s : State) (r : Response) :
    (s.deliver r).responses = s.responses ++ [r] := rfl

@[simp] theorem State.present_config (s : State) (c : Command) : (s.present c).config = s.config := rfl
@[simp] theorem State.present_queue (s : State) (c : Command) :
    (s.present c).queue = s.queue ++ [c] := rfl
@[simp] theorem State.present_responses (s : State) (c : Command) :
    (s.present c).responses = s.responses := rfl

@[simp] theorem State.resetWith_config (cfg : Config) : (State.resetWith cfg).config = cfg := rfl
@[simp] theorem State.resetWith_queue (cfg : Config) : (State.resetWith cfg).queue = [] := rfl
@[simp] theorem State.resetWith_responses (cfg : Config) : (State.resetWith cfg).responses = [] := rfl

@[simp] theorem State.reset_config : State.reset.config = Config.initial := rfl
@[simp] theorem State.reset_queue : State.reset.queue = [] := rfl
@[simp] theorem State.reset_responses : State.reset.responses = [] := rfl

@[simp] theorem State.withFetchWord_config (s : State) (nbits w : Nat) :
    (s.withFetchWord nbits w).config = s.config := by
  unfold State.withFetchWord; split <;> rfl

@[simp] theorem State.withFetchWord_responses (s : State) (nbits w : Nat) :
    (s.withFetchWord nbits w).responses = s.responses := by
  unfold State.withFetchWord; split <;> rfl

@[simp] theorem State.withFetchWord_queue_tail (s : State) (nbits w : Nat) :
    (s.withFetchWord nbits w).queue.tail = s.queue.tail := by
  unfold State.withFetchWord; split <;> simp [*]

/-- After a command `c` at the head of the queue is answered, the state is this record. -/
theorem State.deliver_eq {s : State} {c : Command} {rest : List Command} (h : s.queue = c :: rest)
    (r : Response) :
    s.deliver r = { config := s.config, queue := rest, responses := s.responses ++ [r] } := by
  simp [State.deliver, h]

end Sys2Proof.Machine
end

