-- ==== Sys2Proof/Laws/Ops.lean ====
section
/-! SUPPORT. For each shared operation, once, all that it can do. -/

namespace Sys2Proof.Machine

/-- With the command `c` on the ports, a transaction delivers its answer and nothing else. -/
theorem transact_of_queue {s : State} {c : Command} {rest : List Command}
    (h : s.queue = c :: rest) (answer : Config → Command → Result) :
    s.transact answer =
      .next { config := s.config, queue := rest,
              responses := s.responses ++ [(answer s.config c).toResponse] } := by
  simp [State.transact, State.presented, State.deliver, h]

/-- With no command on the ports there is no transaction. -/
theorem transact_of_empty {s : State} (h : s.queue = []) (answer : Config → Command → Result) :
    s.transact answer = .fault .noCommand := by
  simp [State.transact, State.presented, h]

/-- All that a transaction can do when it answers a next state. -/
theorem transact_next {s t : State} {answer : Config → Command → Result}
    (h : s.transact answer = .next t) :
    ∃ c, s.queue = c :: t.queue ∧ t.config = s.config ∧
      t.responses = s.responses ++ [(answer s.config c).toResponse] := by
  cases hq : s.queue with
  | nil => rw [transact_of_empty hq] at h; cases h
  | cons c rest =>
    rw [transact_of_queue hq] at h
    cases h
    exact ⟨c, rfl, rfl, rfl⟩

/-- The guard passes exactly on a prefix length within the bit length and, where the strict limit
applies, within that. -/
theorem prefixGuard_ok {cfg : Config} {p : Nat} {f : Family} {strict : Bool}
    (h1 : p ≤ f.bitlen)
    (h2 : ¬ (strict = true ∧ cfg.strictV6 = true ∧ f = .v6 ∧ p > v6StrictMax)) :
    prefixGuard cfg p f strict = .ok () := by
  simp only [prefixGuard, if_neg (Nat.not_lt.mpr h1), if_neg h2]

theorem prefixGuard_above {cfg : Config} {p : Nat} {f : Family} {strict : Bool}
    (h : p > f.bitlen) : prefixGuard cfg p f strict = .error .prefixOutOfRange := by
  simp only [prefixGuard, if_pos h]

theorem prefixGuard_strict {cfg : Config} {p : Nat} {f : Family} {strict : Bool}
    (h : strict = true ∧ cfg.strictV6 = true ∧ f = .v6 ∧ p > v6StrictMax) :
    prefixGuard cfg p f strict = .error .prefixOutOfRange := by
  simp only [prefixGuard, if_pos h, ite_self]

/-- The guard answers one of two things. -/
theorem prefixGuard_cases (cfg : Config) (p : Nat) (f : Family) (strict : Bool) :
    (prefixGuard cfg p f strict = .ok () ∧ p ≤ f.bitlen ∧
      ¬ (strict = true ∧ cfg.strictV6 = true ∧ f = .v6 ∧ p > v6StrictMax)) ∨
    (prefixGuard cfg p f strict = .error .prefixOutOfRange ∧
      (p > f.bitlen ∨
        (strict = true ∧ cfg.strictV6 = true ∧ f = .v6 ∧ p > v6StrictMax))) := by
  by_cases h1 : p > f.bitlen
  · exact .inr ⟨prefixGuard_above h1, .inl h1⟩
  · by_cases h2 : strict = true ∧ cfg.strictV6 = true ∧ f = .v6 ∧ p > v6StrictMax
    · exact .inr ⟨prefixGuard_strict h2, .inr h2⟩
    · exact .inl ⟨prefixGuard_ok (by omega) h2, by omega, h2⟩

/-- Bit `j` of byte `i` of a mask: bit `7 - j` from the top, so it is 1 exactly when that many bits
come before the end of the prefix. -/
theorem maskByte_getLsbD (p i j : Nat) (hj : j < 8) :
    (maskByte p i).getLsbD j = decide (i * 8 + (7 - j) < p) := by
  unfold maskByte
  split
  · rename_i h
    have ones : (0xFF#8).getLsbD j = true := by interval_cases j <;> rfl
    rw [ones]
    simp
    omega
  · split
    · rename_i h1 h2
      rw [BitVec.getLsbD_ofNat, Nat.testBit_shiftLeft]
      simp only [hj, decide_true, Bool.true_and]
      by_cases c : j ≥ (i + 1) * 8 - p
      · have ones : Nat.testBit 255 (j - ((i + 1) * 8 - p)) = true := by
          obtain ⟨k, hk⟩ : ∃ k, k = j - ((i + 1) * 8 - p) := ⟨_, rfl⟩
          have hk8 : k < 8 := by omega
          rw [← hk]
          interval_cases k <;> decide
        simp [ones, c]
        omega
      · simp [c]
        omega
    · simp
      omega

@[simp] theorem maskFromPrefix_length (p n : Nat) : (maskFromPrefix p n).length = n := by
  simp [maskFromPrefix]

/-- Byte `i` of a mask whose prefix length is within its bit length. -/
theorem maskFromPrefix_getD {p n i : Nat} (hp : p ≤ 8 * n) (hi : i < n) :
    (maskFromPrefix p n).getD i 0#8 = maskByte p i := by
  simp [maskFromPrefix, hp, hi]

theorem maskFromPrefix_eq {p n : Nat} (hp : p ≤ 8 * n) :
    maskFromPrefix p n = (List.range n).map (maskByte p) := by
  simp [maskFromPrefix, hp]

/-- The reducer of a longer mask, when the first byte is canonical. -/
theorem prefixFromMask_cons_some {b : Byte} {bs : List Byte} {k : Nat} (h : contribution b = some k) :
    prefixFromMask (b :: bs) =
      match prefixFromMask bs with
      | .ok s => .ok (k + s)
      | .error e => .error e := by
  rw [prefixFromMask, h]
  cases prefixFromMask bs <;> rfl

/-- The reducer of a longer mask, when the first byte is not canonical. -/
theorem prefixFromMask_cons_none {b : Byte} {bs : List Byte} (h : contribution b = none) :
    prefixFromMask (b :: bs) = .error .invalidSubnetMask := by
  rw [prefixFromMask, h]

/-- All that the reducer can do: a sum of contributions, one for each byte, or the one error. -/
theorem prefixFromMask_cases (m : List Byte) :
    (∃ ks : List Nat, m.map contribution = ks.map some ∧ prefixFromMask m = .ok ks.sum) ∨
    ((∃ b ∈ m, contribution b = none) ∧ prefixFromMask m = .error .invalidSubnetMask) := by
  induction m with
  | nil => exact .inl ⟨[], rfl, rfl⟩
  | cons b bs ih =>
    cases hb : contribution b with
    | none => exact .inr ⟨⟨b, by simp, hb⟩, prefixFromMask_cons_none hb⟩
    | some k =>
      rcases ih with ⟨ks, h1, h2⟩ | ⟨⟨d, hd, hn⟩, h2⟩
      · exact .inl ⟨k :: ks, by simp [hb, h1], by simp [prefixFromMask_cons_some hb, h2]⟩
      · exact .inr ⟨⟨d, by simp [hd], hn⟩, by simp [prefixFromMask_cons_some hb, h2]⟩

end Sys2Proof.Machine
end

