-- ==== Sys2Proof/Laws/Compute.lean ====
section
/-! SUPPORT. The parts of `Compute`, byte by byte. -/

namespace Sys2Proof.Machine

@[simp] theorem adjustLast_length (f : Byte → Byte) (bs : List Byte) :
    (adjustLast f bs).length = bs.length := by
  fun_induction adjustLast f bs <;> simp_all

/-- Byte `i` after the last byte is adjusted: only the last one differs. -/
theorem adjustLast_getD (f : Byte → Byte) (bs : List Byte) (i : Nat) (hi : i < bs.length) :
    (adjustLast f bs).getD i 0#8 =
      if i + 1 = bs.length then f (bs.getD i 0#8) else bs.getD i 0#8 := by
  fun_induction adjustLast f bs generalizing i with
  | case1 => simp at hi
  | case2 b => simp_all
  | case3 b bs hne ih =>
    cases i with
    | zero => cases bs <;> simp_all
    | succ j => simpa using ih j (by simpa using hi)

@[simp] theorem networkOf_length (a mask : List Byte) :
    (networkOf a mask).length = min a.length mask.length := by
  simp [networkOf]

theorem networkOf_getD {a mask : List Byte} {i : Nat} (h1 : i < a.length) (h2 : i < mask.length) :
    (networkOf a mask).getD i 0#8 = a.getD i 0#8 &&& mask.getD i 0#8 := by
  simp [networkOf, h1, h2]

@[simp] theorem broadcastOf_length (network mask : List Byte) :
    (broadcastOf network mask).length = min network.length mask.length := by
  simp [broadcastOf, hostMask]

theorem broadcastOf_getD {network mask : List Byte} {i : Nat} (h1 : i < network.length)
    (h2 : i < mask.length) :
    (broadcastOf network mask).getD i 0#8 =
      network.getD i 0#8 ||| (mask.getD i 0#8 ^^^ 0xFF#8) := by
  simp [broadcastOf, hostMask, h1, h2]

theorem hostRange_of_usable {network mask : List Byte} (h : usable mask = true) :
    hostRange network mask =
      some (adjustLast incrementByte network,
            adjustLast decrementByte (broadcastOf network mask)) := by
  simp [hostRange, h]

theorem hostRange_of_not_usable {network mask : List Byte} (h : usable mask = false) :
    hostRange network mask = none := by
  simp [hostRange, h]

theorem incrementByte_of_ne {b : Byte} (h : b ≠ 0xFF#8) : incrementByte b = b + 1#8 := by
  simp [incrementByte, h]

theorem decrementByte_of_ne {b : Byte} (h : b ≠ 0x00#8) : decrementByte b = b - 1#8 := by
  simp [decrementByte, h]

@[simp] theorem compute_family (a : List Byte) (f : Family) (p : Nat) : (compute a f p).family = f := rfl
@[simp] theorem compute_address (a : List Byte) (f : Family) (p : Nat) :
    (compute a f p).address = a := rfl
@[simp] theorem compute_mask (a : List Byte) (f : Family) (p : Nat) :
    (compute a f p).mask = maskFromPrefix p f.len := rfl
@[simp] theorem compute_network (a : List Byte) (f : Family) (p : Nat) :
    (compute a f p).network = networkOf a (maskFromPrefix p f.len) := rfl
@[simp] theorem compute_prefixLength (a : List Byte) (f : Family) (p : Nat) :
    (compute a f p).prefixLength = p := rfl
@[simp] theorem compute_range (a : List Byte) (f : Family) (p : Nat) :
    (compute a f p).range =
      hostRange (networkOf a (maskFromPrefix p f.len)) (maskFromPrefix p f.len) := rfl

/-- `CMP` on a prefix length the guard passes. -/
theorem guardedCompute_ok {cfg : Config} {a : List Byte} {f : Family} {p : Nat}
    (h : prefixGuard cfg p f true = .ok ()) : guardedCompute cfg a f p = .info (compute a f p) := by
  simp [guardedCompute, h]

/-- `CMP` on a prefix length the guard stops. -/
theorem guardedCompute_error {cfg : Config} {a : List Byte} {f : Family} {p : Nat} {e : ErrorKind}
    (h : prefixGuard cfg p f true = .error e) : guardedCompute cfg a f p = .error e := by
  simp [guardedCompute, h, raise]

end Sys2Proof.Machine
end

