-- ==== Sys2Proof/Laws/Exec.lean ====
section
/-! SUPPORT. What `exec` and `step` can do, once: every meaning is one transaction. -/

namespace Sys2Proof.Machine

/-- The tagged result of an instruction on a command's operands: what its meaning delivers. -/
def resultOf (i : Instr) (cfg : Config) (c : Command) : Result :=
  match i with
  | .band fa fb _ => byteOp (· &&& ·) fa fb c
  | .bor fa fb _ => byteOp (· ||| ·) fa fb c
  | .bxor fa fb _ => byteOp (· ^^^ ·) fa fb c
  | .reserved3 _ _ _ => raise .illegalOperation
  | .mfp fa _ p => mfpResult cfg fa p
  | .pfm _ fb _ => pfmResult fb c
  | .cmp fa _ p => guardedCompute cfg (c.operandA fa) fa p
  | .cmpm fa fb _ => cmpmResult cfg fa fb c

theorem exec_eq_transact (i : Instr) (s : State) : exec i s = s.transact (resultOf i) := by
  cases i <;> rfl

/-- With the command `c` on the ports, every instruction answers a next state, and this one. -/
theorem exec_of_queue {s : State} {c : Command} {rest : List Command} (h : s.queue = c :: rest)
    (i : Instr) :
    exec i s =
      .next { config := s.config, queue := rest,
              responses := s.responses ++ [(resultOf i s.config c).toResponse] } := by
  rw [exec_eq_transact, transact_of_queue h]

/-- What the machine answers to a command, legal or not. -/
def answerTo (cfg : Config) (c : Command) : Result :=
  match decode c.cw with
  | .ok i => resultOf i cfg c
  | .error _ => raise .illegalOperation

/-- A step with the command `c` on the ports. -/
theorem step_of_queue {s : State} {c : Command} {rest : List Command} (h : s.queue = c :: rest) :
    step s =
      .next { config := s.config, queue := rest,
              responses := s.responses ++ [(answerTo s.config c).toResponse] } := by
  simp only [step, State.presented, h, List.head?_cons, answerTo]
  cases decode c.cw with
  | ok i => exact exec_of_queue h i
  | error e => exact transact_of_queue h _

theorem step_of_empty {s : State} (h : s.queue = []) : step s = .fault .noCommand := by
  simp [step, State.presented, h]

/-- ALL THAT A STEP CAN DO: it takes the first command off the queue and appends its response. -/
theorem step_next_cases {s t : State} (h : step s = .next t) :
    ∃ c rest, s.queue = c :: rest ∧
      t = { config := s.config, queue := rest,
            responses := s.responses ++ [(answerTo s.config c).toResponse] } := by
  cases hq : s.queue with
  | nil => rw [step_of_empty hq] at h; cases h
  | cons c rest =>
    rw [step_of_queue hq] at h
    cases h
    exact ⟨c, rest, rfl, rfl⟩

end Sys2Proof.Machine
end

