-- ==== Sys2Proof/Laws/Words.lean ====
section
/-! SUPPORT. The bits of a word made of the five fields of the format (R50, R51), and what decoding does. -/

namespace Sys2Proof

/-- Bit `i` of a word of the format `[15:13] [12] [11] [10:8] [7:0]`. -/
theorem fields_getLsbD (op : BitVec 3) (a b : Bool) (rsv : BitVec 3) (p : BitVec 8) (i : Nat) :
    BitVec.getLsbD (w := 16) (op ++ BitVec.ofBool a ++ BitVec.ofBool b ++ rsv ++ p) i =
      if i < 8 then p.getLsbD i
      else if i < 11 then rsv.getLsbD (i - 8)
      else if i = 11 then b
      else if i = 12 then a
      else op.getLsbD (i - 13) := by
  show BitVec.getLsbD (w := 3 + 1 + 1 + 3 + 8)
    (op ++ BitVec.ofBool a ++ BitVec.ofBool b ++ rsv ++ p) i = _
  simp only [BitVec.getLsbD_append]
  split
  · rfl
  · split <;> rename_i h8 h11
    · simp [show i < 11 by omega]
    · rw [if_neg (show ¬ i < 11 by omega)]
      by_cases h : i = 11
      · subst h; simp
      · by_cases h' : i = 12
        · subst h'; simp
        · simp only [if_neg h, if_neg h', show i - 8 - 3 - 1 - 1 = i - 13 by omega,
            show ¬ i - 8 - 3 < 1 by omega, show ¬ i - 8 - 3 - 1 < 1 by omega, if_false]

end Sys2Proof

namespace Sys2Proof.Machine

theorem controlWord_getLsbD (op : BitVec 3) (fa fb : Family) (rsv : BitVec 3) (p : BitVec 8)
    (i : Nat) :
    (controlWord op fa fb rsv p).getLsbD i =
      if i < 8 then p.getLsbD i
      else if i < 11 then rsv.getLsbD (i - 8)
      else if i = 11 then fb.tag
      else if i = 12 then fa.tag
      else op.getLsbD (i - 13) :=
  fields_getLsbD op fa.tag fb.tag rsv p i

@[simp] theorem rsvField_controlWord (op : BitVec 3) (fa fb : Family) (rsv : BitVec 3)
    (p : BitVec 8) : rsvField (controlWord op fa fb rsv p) = rsv := by
  apply BitVec.eq_of_getLsbD_eq
  intro i hi
  simp only [rsvField, BitVec.getLsbD_extractLsb', hi, controlWord_getLsbD]
  simp [show ¬ 8 + i < 8 by omega, show 8 + i < 11 by omega]

@[simp] theorem opField_controlWord (op : BitVec 3) (fa fb : Family) (rsv : BitVec 3)
    (p : BitVec 8) : opField (controlWord op fa fb rsv p) = op := by
  apply BitVec.eq_of_getLsbD_eq
  intro i hi
  simp only [opField, BitVec.getLsbD_extractLsb', hi, controlWord_getLsbD]
  simp [show ¬ 13 + i < 8 by omega, show ¬ 13 + i < 11 by omega, show ¬ 13 + i = 11 by omega,
    show ¬ 13 + i = 12 by omega]

@[simp] theorem pField_controlWord (op : BitVec 3) (fa fb : Family) (rsv : BitVec 3)
    (p : BitVec 8) : pField (controlWord op fa fb rsv p) = p.toNat := by
  unfold pField
  congr 1
  apply BitVec.eq_of_getLsbD_eq
  intro i hi
  simp only [BitVec.getLsbD_extractLsb', hi, controlWord_getLsbD]
  simp [hi]

@[simp] theorem faField_controlWord (op : BitVec 3) (fa fb : Family) (rsv : BitVec 3)
    (p : BitVec 8) : faField (controlWord op fa fb rsv p) = fa := by
  unfold faField
  rw [controlWord_getLsbD]
  cases fa <;> rfl

@[simp] theorem fbField_controlWord (op : BitVec 3) (fa fb : Family) (rsv : BitVec 3)
    (p : BitVec 8) : fbField (controlWord op fa fb rsv p) = fb := by
  unfold fbField
  rw [controlWord_getLsbD]
  cases fb <;> rfl

/-- The word of an instruction, field by field. -/
theorem encode_eq_controlWord (i : Instr) :
    encode i = controlWord i.opcode i.faTag i.fbTag 0#3 (BitVec.ofNat 8 i.pField) := rfl

/-- All that decoding does: `RSV` decides, and then the three bits of `OP` select (R54). -/
theorem decode_eq (cw : ControlWord) :
    decode cw =
      if rsvField cw = 0#3 then
        .ok (selectOp ((opField cw).getLsbD 2) ((opField cw).getLsbD 1) ((opField cw).getLsbD 0)
          (faField cw) (fbField cw) (pField cw))
      else .error (.reservedBitsSet (rsvField cw)) := by
  have hb : ∀ j, j < 3 → (opField cw).getLsbD j = cw.getLsbD (13 + j) := by
    intro j hj
    simp [opField, hj]
  rw [hb 0 (by decide), hb 1 (by decide), hb 2 (by decide)]
  rfl

end Sys2Proof.Machine
end

