-- ==== Sys2Proof/Laws/PerInstr.lean ====
section
/-! SUPPORT. Facts about an instruction as a control word, one lemma per constructor. -/

namespace Sys2Proof.Laws.TableRow

/-- The `match` value of an instruction's row of spec/opcode_table.json (R52). -/
def matchBits : Instr → ControlWord
  | .band ..      => 0x0000#16
  | .bor ..       => 0x2000#16
  | .bxor ..      => 0x4000#16
  | .reserved3 .. => 0x6000#16
  | .mfp ..       => 0x8000#16
  | .pfm ..       => 0xA000#16
  | .cmp ..       => 0xC000#16
  | .cmpm ..      => 0xE000#16

/-- The word of an instruction has its row's bits under the mask `0xE700` (R52). -/
def Statement (i : Instr) : Prop := encode i &&& 0xE700#16 = matchBits i

/-- Only the bits of `OP` and `RSV` stand under the mask, whatever the other fields are. -/
theorem under_mask (op : BitVec 3) (a b : Bool) (p : BitVec 8) :
    (op ++ BitVec.ofBool a ++ BitVec.ofBool b ++ 0b000#3 ++ p : BitVec 16) &&& 0xE700#16
      = op.setWidth 16 <<< 13 := by
  apply BitVec.eq_of_getLsbD_eq
  intro i hi
  rw [BitVec.getLsbD_and, fields_getLsbD]
  interval_cases i <;> simp

theorem band (fa fb : Family) (p : Nat) : Statement (.band fa fb p) := under_mask _ _ _ _
theorem bor (fa fb : Family) (p : Nat) : Statement (.bor fa fb p) := under_mask _ _ _ _
theorem bxor (fa fb : Family) (p : Nat) : Statement (.bxor fa fb p) := under_mask _ _ _ _
theorem reserved3 (fa fb : Family) (p : Nat) : Statement (.reserved3 fa fb p) := under_mask _ _ _ _
theorem mfp (fa fb : Family) (p : Nat) : Statement (.mfp fa fb p) := under_mask _ _ _ _
theorem pfm (fa fb : Family) (p : Nat) : Statement (.pfm fa fb p) := under_mask _ _ _ _
theorem cmp (fa fb : Family) (p : Nat) : Statement (.cmp fa fb p) := under_mask _ _ _ _
theorem cmpm (fa fb : Family) (p : Nat) : Statement (.cmpm fa fb p) := under_mask _ _ _ _

end Sys2Proof.Laws.TableRow
end

