-- ==== Sys2Proof/Laws/Written.lean ====
section
/-! SUPPORT. Lemmas on commands as written: the family of a byte sequence, and the ports it fills. -/

namespace Sys2Proof.Machine

/-- A byte sequence of a family's length has that family (R20, R58). -/
theorem familyOf_of_length {f : Family} {bs : List Byte} (h : bs.length = f.len) :
    familyOf bs = some f := by
  cases f <;> simp only [familyOf, h] <;> rfl

/-- A byte sequence leaves every lane beyond its end zero (R43, R55). -/
theorem zeroFrom_portOf {bs : List Byte} {n : Nat} (hlen : bs.length ≤ n) :
    zeroFrom n (portOf bs) := by
  intro i hni hi
  rw [lane_portOf bs i (by omega) hi]
  simp [show bs.length ≤ i by omega]

@[simp] theorem assemble_cw (i : Instr) (a b : List Byte) : (assemble i a b).cw = encode i := rfl

@[simp] theorem assemble_a (i : Instr) (a b : List Byte) : (assemble i a b).a = portOf a := rfl

@[simp] theorem assemble_b (i : Instr) (a b : List Byte) : (assemble i a b).b = portOf b := rfl

end Sys2Proof.Machine
end

