-- ==== Sys2Proof/Tests/Slice0.lean ====
section
/-! SUPPORT. The model's own tests: words written out bit by bit, one ill-formed term for the check of
WellFormed, single transactions with the answers of spec/95_test_vectors.md, and, for every statement
with hypotheses, a concrete case that meets them. -/

namespace Sys2Proof.Tests

open Sys2Proof.Machine

/-! ## Words: `OP` [15:13], `FA` [12], `FB` [11], `RSV` [10:8], `P` [7:0] (R50), each from its bits -/

theorem test_decode_band : decode 0b0001000010100101#16 = .ok (.band .v6 .v4 0xA5) := by decide
theorem test_decode_bor : decode 0b0010100000000001#16 = .ok (.bor .v4 .v6 1) := by decide
theorem test_decode_bxor : decode 0b0101100000000000#16 = .ok (.bxor .v6 .v6 0) := by decide
theorem test_decode_reserved3 : decode 0b0111100011111111#16 = .ok (.reserved3 .v6 .v6 255) := by
  decide
theorem test_decode_mfp : decode 0b1001000000111101#16 = .ok (.mfp .v6 .v4 61) := by decide
theorem test_decode_pfm : decode 0b1010100010000000#16 = .ok (.pfm .v4 .v6 128) := by decide
theorem test_decode_cmp : decode 0b1100000000010110#16 = .ok (.cmp .v4 .v4 22) := by decide
theorem test_decode_cmpm : decode 0b1111000000000000#16 = .ok (.cmpm .v6 .v4 0) := by decide

/-- X3 and P5 step 5 of 95_test_vectors.md: each bit of `RSV` alone makes the word illegal. -/
theorem test_decode_refuses_each_reserved_bit :
    decode 0b1100000100010110#16 = .error (.reservedBitsSet 0b001#3) ∧
    decode 0b1100001000010110#16 = .error (.reservedBitsSet 0b010#3) ∧
    decode 0b1100010000010110#16 = .error (.reservedBitsSet 0b100#3) := by decide

theorem test_encode_cmp : encode (.cmp .v6 .v4 64) = 0b1101000001000000#16 := by decide

/-- The one check of WellFormed: a prefix-length field above 255. -/
theorem test_wellFormed_refuses_wide_p : (Instr.cmp .v4 .v4 256).wellFormed = false := by decide
theorem test_wellFormed_accepts_largest_p : (Instr.cmp .v4 .v4 255).wellFormed = true := by decide

/-- The `match` word of every row of spec/opcode_table.json decodes to that row's constructor. -/
theorem test_decodeTableWord_rows :
    [0x0000, 0x2000, 0x4000, 0x6000, 0x8000, 0xA000, 0xC000, 0xE000].map (decodeTableWord 16) =
      [some (.band .v4 .v4 0), some (.bor .v4 .v4 0), some (.bxor .v4 .v4 0),
       some (.reserved3 .v4 .v4 0), some (.mfp .v4 .v4 0), some (.pfm .v4 .v4 0),
       some (.cmp .v4 .v4 0), some (.cmpm .v4 .v4 0)] := by decide

/-- A fetch word is the first instruction after reset. -/
theorem test_fetch_word_runs_first :
    step (State.reset.withFetchWord 16 0xC016) =
      exec (.cmp .v4 .v4 22) (State.reset.withFetchWord 16 0xC016) := rfl

/-! ## Single transactions, with the answers of 95_test_vectors.md -/

/-- A byte sequence from its bytes. -/
def seq (ns : List Nat) : List Byte := ns.map (BitVec.ofNat 8)

/-- A port from its bytes. -/
def onPort (ns : List Nat) : Port := portOf (seq ns)

/-- The operand `X6` of 95_test_vectors.md. -/
def x6 : Port := 0x20010DB885A3000000008A2E03707334#128

/-- The unit with `STRICT_V6` = true. -/
def strict : Config := { strictV6 := true }

/-- V-BOP B22: lanes 4 to 15 of `V4` operands are ignored. -/
theorem test_band_B22 :
    respond Config.initial
      { cw := 0x0000#16, a := 0x0A9811F0DEADBEEF1111111111111111#128
        b := 0xFFFFFC00FFFFFFFFFFFFFFFFFFFFFFFF#128 } =
      some { Response.zero with y := onPort [10, 152, 16, 0] } := by decide

/-- V-BOP B19: operands of different lengths. -/
theorem test_band_B19 :
    (respond Config.initial { cw := 0x1000#16, a := x6, b := onPort [255, 255, 252, 0] }).map
      Response.sw = some 0xA000#16 := by decide

/-- V-BOP B14. -/
theorem test_bor_B14 :
    respond Config.initial
      { cw := 0x2000#16, a := onPort [170, 85, 240, 15], b := onPort [255, 255, 60, 60] } =
      some { Response.zero with y := onPort [255, 255, 252, 63] } := by decide

/-- V-BOP B12. -/
theorem test_bxor_B12 :
    respond Config.initial
      { cw := 0x4000#16, a := onPort [170, 85, 240, 15], b := onPort [255, 255, 60, 60] } =
      some { Response.zero with y := onPort [85, 170, 204, 51] } := by decide

/-- V-ILL X2: the reserved `OP`. -/
theorem test_reserved3_X2 :
    (respond Config.initial { cw := 0x78FF#16, a := x6, b := x6 }).map Response.sw =
      some 0xC000#16 := by decide

/-- V-ILL X5: `IllegalOperation` beats `PrefixOutOfRange`. -/
theorem test_illegal_X5 :
    respond Config.initial { cw := 0x8221#16, a := 0, b := 0 } =
      some (Response.failed .illegalOperation) := by decide

/-- V-MFP M9: `MFP v6, 61`. -/
theorem test_mfp_M9 :
    respond Config.initial { cw := 0x903D#16, a := 0, b := 0 } =
      some { Response.zero with fr := .v6, mask := 0xFFFFFFFFFFFFFFF80000000000000000#128 } := by
  decide

/-- V-MFP M18: the strict limit does not apply to `MFP`. -/
theorem test_mfp_M18 :
    respond strict { cw := 0x9080#16, a := 0, b := 0 } =
      some { Response.zero with fr := .v6, mask := BitVec.allOnes 128 } := by decide

/-- V-PFM F20: canonical byte by byte, not contiguous: accepted. -/
theorem test_pfm_F20 :
    (respond Config.initial { cw := 0xA000#16, a := 0, b := onPort [255, 0, 255, 0] }).map
      Response.sw = some 0x0010#16 := by decide

/-- V-PFM F14 (S3 of the source): a byte that is not canonical. -/
theorem test_pfm_F14 :
    (respond Config.initial { cw := 0xA000#16, a := 0, b := onPort [255, 255, 255, 85] }).map
      Response.sw = some 0x8000#16 := by decide

/-- V-CMP C9: the smallest subnet with a range. -/
theorem test_cmp_C9 :
    respond Config.initial { cw := 0xC01E#16, a := onPort [192, 168, 1, 5], b := 0 } =
      some { Response.zero with
        hr := true, plen := 30, addr := onPort [192, 168, 1, 5], net := onPort [192, 168, 1, 4]
        mask := onPort [255, 255, 255, 252], first := onPort [192, 168, 1, 5]
        last := onPort [192, 168, 1, 6] } := by decide

/-- V-CMP C30 and C34: /127 with `STRICT_V6` false and true. -/
theorem test_cmp_C30_C34 :
    (respond Config.initial { cw := 0xD07F#16, a := x6, b := 0 }).map Response.sw =
      some 0x107F#16 ∧
    (respond strict { cw := 0xD07F#16, a := x6, b := 0 }).map Response.sw = some 0x6000#16 := by
  decide

/-- V-CMPM Q9: the output mask is the canonical one. -/
theorem test_cmpm_Q9 :
    respond Config.initial
      { cw := 0xE000#16, a := onPort [10, 152, 17, 240], b := onPort [128, 128, 0, 0] } =
      some { Response.zero with
        hr := true, plen := 2, addr := onPort [10, 152, 17, 240], mask := onPort [192, 0, 0, 0]
        first := onPort [0, 0, 0, 1], last := onPort [63, 255, 255, 254] } := by decide

/-- V-CMPM Q20: the bad byte is found before any prefix length exists. -/
theorem test_cmpm_Q20 :
    (respond strict
      { cw := 0xF800#16, a := x6, b := 0xFFFFFFFFFFFFFFFFFFFFFFFFFFFFFF55#128 }).map Response.sw =
      some 0x8000#16 := by decide

/-- `CMP 10.152.17.240/22` as written is `CW=0xC016` (R58, S1), and five bytes are no address. -/
theorem test_written_cmp :
    writeCmp (seq [10, 152, 17, 240]) 22 =
      some (writeRaw 0xC016#16 (seq [10, 152, 17, 240]) []) ∧
    writeCmp (seq [1, 2, 3, 4, 5]) 22 = none := by decide

/-! ## Witnesses: a concrete case that meets the hypotheses of each statement -/

/-- A state with the command `c` on the ports, another one after it, and an error already delivered. -/
def presenting (cfg : Config) (c : Command) : State :=
  { config := cfg, queue := [c, { cw := 0x6000#16, a := x6, b := 0 }],
    responses := [Response.failed .lengthMismatch] }

/-- The command of S1: `CMP 10.152.17.240, 22`. -/
def cmdS1 : Command := { cw := 0xC016#16, a := onPort [10, 152, 17, 240], b := 0 }

/-- The commands after the first in `presenting`. -/
def others : List Command := [{ cw := 0x6000#16, a := x6, b := 0 }]

theorem witness_DecodeOfEncode : (Instr.cmpm .v6 .v4 255).wellFormed = true := by decide

theorem witness_EncodeOfDecode : decode 0xF8FF#16 = .ok (.cmpm .v6 .v6 255) := by decide

theorem witness_ControlWordFields : (Instr.mfp .v6 .v6 255).wellFormed = true := by decide

/-- Each clause on an ignored field, on an instruction where that field is not already canonical. -/
theorem witness_CanonicalFormMeansTheSame :
    (Instr.pfm .v6 .v6 255).wellFormed = true ∧
    (readSet (Instr.pfm .v6 .v6 255).opcode).fa = false ∧
    (readSet (Instr.pfm .v6 .v6 255).opcode).p = false ∧
    (Instr.cmp .v6 .v6 255).wellFormed = true ∧
    (readSet (Instr.cmp .v6 .v6 255).opcode).fb = false := by decide

theorem witness_LanesOnThePorts :
    (15 < 16 ∧ 7 < 8) ∧ (List.replicate 16 (0xFF#8 : Byte)).length = 16 ∧
    (seq [255, 0, 0, 1]).length = 4 ∧
    (0x0A9811F0DEADBEEF1111111111111111#128).extractLsb' 96 32 =
      (onPort [10, 152, 17, 240]).extractLsb' 96 32 := by decide

theorem witness_OperandRoundTrip :
    (seq [255, 0, 0, 1]).length = Family.v4.len ∧ (bytesOf .v6 x6).length = Family.v6.len := by
  decide

theorem witness_AddressOrderIsByteWise :
    (seq [10, 0, 255, 0]).length = (seq [10, 1, 0, 0]).length ∧
    (seq [10, 0, 255, 0]).length ≠ (bytesOf .v6 x6).length := by decide

theorem witness_WrittenCommandsAreCanonical :
    (seq [10, 152, 17, 240]).length = Family.v4.len ∧ (bytesOf .v6 x6).length = Family.v6.len ∧
    255 < 256 := by decide

theorem witness_StepRunsTheDecodedInstruction :
    (presenting Config.initial cmdS1).queue = cmdS1 :: others ∧
    decode cmdS1.cw = .ok (.cmp .v4 .v4 22) := by decide

theorem witness_FetchWordRunsNext :
    decodeTableWord 16 0xFFFF = none ∧ decodeTableWord 16 0xF8FF = some (.cmpm .v6 .v6 255) := by
  decide

/-- Case (a) with `OP` = 6 and `RSV` = 100, and case (b) with `RSV` = 000. -/
theorem witness_IllegalControlWordsAreAnswered :
    (presenting strict { cmdS1 with cw := 0xC416#16 }).queue =
      { cmdS1 with cw := 0xC416#16 } :: others ∧ rsvField 0xC416#16 ≠ 0#3 ∧
    (presenting strict { cmdS1 with cw := 0x78FF#16 }).queue =
      { cmdS1 with cw := 0x78FF#16 } :: others ∧ rsvField 0x78FF#16 = 0#3 ∧
    opField 0x78FF#16 = 3#3 := by decide

theorem witness_EveryControlWordIsAnswered :
    (presenting strict { cmdS1 with cw := 0xFFFF#16 }).queue =
      { cmdS1 with cw := 0xFFFF#16 } :: others ∧ rsvField 0xFFFF#16 ≠ 0#3 ∧
    (presenting strict { cmdS1 with cw := 0xF8FF#16 }).queue =
      { cmdS1 with cw := 0xF8FF#16 } :: others ∧ rsvField 0xF8FF#16 = 0#3 := by decide

theorem witness_StepTakesOneCommand :
    (∃ t, step (presenting strict cmdS1) = .next t) ∧
    (∃ t, exec (.cmp .v4 .v4 22) (presenting strict cmdS1) = .next t) := ⟨⟨_, rfl⟩, ⟨_, rfl⟩⟩

theorem witness_OnlyAnAbsentCommandStops :
    State.reset.queue = [] ∧ (presenting strict cmdS1).queue ≠ [] := by decide

theorem witness_PresentingACommandWaitsItsTurn :
    ∃ t, step (presenting Config.initial cmdS1) = .next t := ⟨_, rfl⟩

theorem witness_ResponseDependsOnItsCommandOnly :
    (presenting Config.initial cmdS1).queue = cmdS1 :: others := by decide

/-- Two different commands that agree in all that `CMP` reads: `FB`, `B` and the lanes 4 to 15 of `A`
differ (P5 steps 1 to 3). -/
theorem witness_UnreadFieldsMakeNoDifference :
    agreeOnReads cmdS1
      { cw := 0xC816#16, a := 0x0A9811F0EEEEEEEEEEEEEEEEEEEEEEEE#128, b := x6 } := by
  unfold agreeOnReads sameLanes
  decide

theorem witness_StepKeepsResponsesWellShaped :
    (State.resetWith strict).Good ∧
    ∃ t, step ((State.resetWith strict).present cmdS1) = .next t ∧
      ((State.resetWith strict).present cmdS1).Good :=
  ⟨fun _ h => by simp [State.resetWith] at h, ⟨_, rfl, fun _ h => by
    simp [State.present, State.resetWith] at h⟩⟩

/-- For `BAND`, `BOR`, `BXOR`: an illegal word, operands of different families, and the equations that
the corner cases assume, each with an answer that exists. -/
theorem witness_BandAndsLaneByLane :
    (presenting strict { cmdS1 with cw := 0x0400#16 }).queue =
      { cmdS1 with cw := 0x0400#16 } :: others ∧
    (0x0400#16 : ControlWord) = controlWord 0b000#3 .v4 .v4 0b100#3 0#8 ∧ 0b100#3 ≠ 0#3 ∧
    (presenting strict cmdS1).queue = cmdS1 :: others ∧ Family.v4 ≠ Family.v6 ∧
    answersY strict (.band .v4 .v4 0) (onPort [1, 2, 3, 4]) 0 .v4 0 ∧ sameLanes 4 0 0 ∧
    answersY strict (.band .v6 .v6 0) x6 (BitVec.allOnes 128) .v6 x6 ∧
    (∀ i, i < 16 → lane (BitVec.allOnes 128) i = 0xFF#8) ∧
    answersY strict (.band .v6 .v6 0) x6 x6 .v6 x6 ∧ sameLanes 16 x6 x6 := by
  unfold answersY sameLanes
  decide

theorem witness_BorOrsLaneByLane :
    (presenting strict { cmdS1 with cw := 0x2400#16 }).queue =
      { cmdS1 with cw := 0x2400#16 } :: others ∧
    (0x2400#16 : ControlWord) = controlWord 0b001#3 .v4 .v4 0b100#3 0#8 ∧ 0b100#3 ≠ 0#3 ∧
    (presenting strict cmdS1).queue = cmdS1 :: others ∧ Family.v6 ≠ Family.v4 ∧
    answersY strict (.bor .v4 .v4 0) (onPort [1, 2, 3, 4]) 0 .v4 (onPort [1, 2, 3, 4]) ∧
    sameLanes 4 0 0 ∧
    answersY strict (.bor .v6 .v6 0) x6 (BitVec.allOnes 128) .v6 (BitVec.allOnes 128) ∧
    (∀ i, i < 16 → lane (BitVec.allOnes 128) i = 0xFF#8) ∧
    answersY strict (.bor .v6 .v6 0) x6 x6 .v6 x6 ∧ sameLanes 16 x6 x6 := by
  unfold answersY sameLanes
  decide

theorem witness_BxorXorsLaneByLane :
    (presenting strict { cmdS1 with cw := 0x4400#16 }).queue =
      { cmdS1 with cw := 0x4400#16 } :: others ∧
    (0x4400#16 : ControlWord) = controlWord 0b010#3 .v4 .v4 0b100#3 0#8 ∧ 0b100#3 ≠ 0#3 ∧
    (presenting strict cmdS1).queue = cmdS1 :: others ∧ Family.v6 ≠ Family.v4 ∧
    answersY strict (.bxor .v4 .v4 0) (onPort [1, 2, 3, 4]) 0 .v4 (onPort [1, 2, 3, 4]) ∧
    sameLanes 4 0 0 ∧
    answersY strict (.bxor .v6 .v6 0) x6 (BitVec.allOnes 128) .v6 (~~~ x6) ∧
    (∀ i, i < 16 → lane (BitVec.allOnes 128) i = 0xFF#8) ∧
    answersY strict (.bxor .v6 .v6 0) x6 x6 .v6 0 ∧ sameLanes 16 x6 x6 := by
  unfold answersY sameLanes
  decide

theorem witness_ByteOpLaws :
    (presenting strict cmdS1).queue = cmdS1 :: others := by decide

theorem witness_ReservedOpAnswersIllegalOperation :
    (presenting strict cmdS1).queue = cmdS1 :: others := by decide

/-- The boundaries of the prefix guard: 32 and 33 for `V4`, 128 and 129 for `V6`. -/
theorem witness_MfpExpandsAPrefixLength :
    (presenting strict { cmdS1 with cw := 0x8221#16 }).queue =
      { cmdS1 with cw := 0x8221#16 } :: others ∧
    (0x8221#16 : ControlWord) = controlWord 0b100#3 .v4 .v4 0b010#3 33#8 ∧ 0b010#3 ≠ 0#3 ∧
    (presenting strict cmdS1).queue = cmdS1 :: others ∧
    33 > Family.v4.bitlen ∧ 129 > Family.v6.bitlen ∧ 32 ≤ Family.v4.bitlen ∧
    128 ≤ Family.v6.bitlen := by decide

/-- F24 and F31: the same lanes are canonical as a `V4` mask and not as a `V6` mask. -/
theorem witness_PfmReducesAMask :
    (presenting strict { cmdS1 with cw := 0xA100#16 }).queue =
      { cmdS1 with cw := 0xA100#16 } :: others ∧
    (0xA100#16 : ControlWord) = controlWord 0b101#3 .v4 .v4 0b001#3 0#8 ∧ 0b001#3 ≠ 0#3 ∧
    (presenting strict
      { cw := 0xA800#16, a := 0, b := 0xFFFFFC00555555555555555555555555#128 }).queue =
      { cw := 0xA800#16, a := 0, b := 0xFFFFFC00555555555555555555555555#128 } :: others ∧
    lanesCanonical Family.v6.len 0xFFFFFC00555555555555555555555555#128 = false ∧
    lanesCanonical Family.v4.len 0xFFFFFC00555555555555555555555555#128 = true := by decide

/-- The boundaries: 33 and 129 fail, 127 fails when strict, 32, 128 (not strict) and 126 (strict)
succeed. -/
theorem witness_CmpComputesSubnetInfo :
    (presenting strict { cmdS1 with cw := 0xC116#16 }).queue =
      { cmdS1 with cw := 0xC116#16 } :: others ∧
    (0xC116#16 : ControlWord) = controlWord 0b110#3 .v4 .v4 0b001#3 22#8 ∧ 0b001#3 ≠ 0#3 ∧
    (presenting strict cmdS1).queue = cmdS1 :: others ∧
    33 > Family.v4.bitlen ∧ 129 > Family.v6.bitlen ∧
    ((presenting strict cmdS1).config.strictV6 = true ∧ Family.v6 = .v6 ∧ 127 > 126) ∧
    (32 ≤ Family.v4.bitlen ∧
      ¬ ((presenting strict cmdS1).config.strictV6 = true ∧ Family.v4 = .v6 ∧ 32 > 126)) ∧
    (126 ≤ Family.v6.bitlen ∧
      ¬ ((presenting strict cmdS1).config.strictV6 = true ∧ Family.v6 = .v6 ∧ 126 > 126)) ∧
    (128 ≤ Family.v6.bitlen ∧
      ¬ ((presenting Config.initial cmdS1).config.strictV6 = true ∧ Family.v6 = .v6 ∧ 128 > 126)) :=
  by decide

/-- Q20, Q14, Q16 and Q13: a bad byte; a derived 127 when strict; 126 when strict; 128 when not. -/
theorem witness_CmpmComputesFromAMask :
    (presenting strict { cmdS1 with cw := 0xE100#16 }).queue =
      { cmdS1 with cw := 0xE100#16 } :: others ∧
    (0xE100#16 : ControlWord) = controlWord 0b111#3 .v4 .v4 0b001#3 0#8 ∧ 0b001#3 ≠ 0#3 ∧
    (presenting strict cmdS1).queue = cmdS1 :: others ∧ Family.v6 ≠ Family.v4 ∧
    (∀ b : Port, (presenting strict { cmdS1 with b := b }).queue = { cmdS1 with b := b } :: others ∧
      (presenting strict { cmdS1 with b := b }).config.strictV6 = true) ∧
    lanesCanonical 16 0xFFFFFFFFFFFFFFFFFFFFFFFFFFFFFF55#128 = false ∧
    (lanesCanonical 16 0xFFFFFFFFFFFFFFFFFFFFFFFFFFFFFFFE#128 = true ∧
      onesInLanes 16 0xFFFFFFFFFFFFFFFFFFFFFFFFFFFFFFFE#128 = 127) ∧
    (lanesCanonical 16 0xFFFFFFFFFFFFFFFFFFFFFFFFFFFFFFFC#128 = true ∧
      onesInLanes 16 0xFFFFFFFFFFFFFFFFFFFFFFFFFFFFFFFC#128 = 126) ∧
    (lanesCanonical 16 (BitVec.allOnes 128) = true ∧
      onesInLanes 16 (BitVec.allOnes 128) = 128 ∧
      (presenting Config.initial cmdS1).config.strictV6 = false) :=
  ⟨by decide, by decide, by decide, by decide, by decide, fun _ => ⟨rfl, rfl⟩, by decide, by decide,
    by decide, by decide⟩

theorem witness_CmpmDelegatesToCmp :
    (presenting strict { cmdS1 with b := onPort [255, 0, 255, 0] }).queue =
      { cmdS1 with b := onPort [255, 0, 255, 0] } :: others ∧
    prefixFromMask (Command.operandB .v4 { cmdS1 with b := onPort [255, 0, 255, 0] }) = .ok 16 := by
  decide

theorem witness_MaskIsLeadingOnes :
    (0 ≤ Family.v4.bitlen ∧ 32 ≤ Family.v4.bitlen ∧ 128 ≤ Family.v6.bitlen) ∧
    (3 < Family.v4.len ∧ 15 < Family.v6.len) := by decide

theorem witness_MaskBytesContribute :
    isCanonicalByte 0x80#8 = true ∧ (seq [255, 0, 255, 0]).all isCanonicalByte = true ∧
    (seq [255, 255, 255, 85]).all isCanonicalByte = false := by decide

theorem witness_MaskRoundTrip :
    128 ≤ Family.v6.bitlen ∧ 32 ≤ Family.v4.bitlen ∧
    (seq [255, 0, 255, 0]).length = Family.v4.len ∧ prefixFromMask (seq [255, 0, 255, 0]) = .ok 16 ∧
    ∃ r, respond strict { cw := encode (.mfp .v6 .v4 128), a := 0, b := x6 } = some r :=
  ⟨by decide, by decide, by decide, by decide, _, rfl⟩

theorem witness_UsableMeansTwoHostBits :
    30 ≤ Family.v4.bitlen ∧ 31 ≤ Family.v4.bitlen ∧ 126 ≤ Family.v6.bitlen ∧
    128 ≤ Family.v6.bitlen := by decide

theorem witness_LastByteCannotOverflow :
    (seq [255, 255, 255, 255]).length = Family.v4.len ∧ 30 ≤ Family.v4.bitlen - 2 ∧
    (bytesOf .v6 x6).length = Family.v6.len ∧ 126 ≤ Family.v6.bitlen - 2 := by decide

theorem witness_SingleByteEqualsFullWidth :
    (seq [255, 255, 255, 255]).length = Family.v4.len ∧ 30 ≤ Family.v4.bitlen ∧
    (compute (seq [255, 255, 255, 255]) .v4 30).range =
      some (seq [255, 255, 255, 253], seq [255, 255, 255, 254]) := by decide

theorem witness_HostRangeLiesInsideTheSubnet :
    (seq [0, 0, 0, 0]).length = Family.v4.len ∧ 0 ≤ Family.v4.bitlen ∧
    (compute (seq [0, 0, 0, 0]) .v4 0).range =
      some (seq [0, 0, 0, 1], seq [255, 255, 255, 254]) := by decide

theorem witness_NetworkAddressIsMasked :
    22 < 256 ∧
    (respond strict { cw := encode (.cmp .v4 .v6 22), a := onPort [10, 152, 17, 240], b := x6 }).map
      Response.st = some .ok ∧
    (∀ i, i < 4 → lane (onPort [0, 0, 3, 255]) i = lane (onPort [255, 255, 252, 0]) i ^^^ 0xFF#8) :=
  by decide

/-- C9 and C14: two addresses that differ only in host bits. -/
theorem witness_RangeIgnoresHostBits :
    30 ≤ Family.v4.bitlen ∧
    (∀ i, i < 4 → lane (onPort [192, 168, 1, 5]) i &&& maskByte 30 i =
      lane (onPort [192, 168, 1, 6]) i &&& maskByte 30 i) ∧
    (respond strict
      { cw := encode (.cmp .v4 .v4 30), a := onPort [192, 168, 1, 5], b := 0 }).map
        (fun r => (r.st, r.net, r.mask)) =
      some (.ok, onPort [192, 168, 1, 4], onPort [255, 255, 255, 252]) ∧
    (respond Config.initial
      { cw := encode (.cmp .v4 .v4 30), a := onPort [192, 168, 1, 6], b := x6 }).map
        (fun r => (r.st, r.net, r.mask)) =
      some (.ok, onPort [192, 168, 1, 4], onPort [255, 255, 255, 252]) := by decide

theorem witness_BoundaryTable : 255 < 256 ∧ 129 < 256 := by decide

theorem witness_ErrorResponseIsAllZero :
    ∃ r, respond strict { cw := 0xD07F#16, a := x6, b := 0 } = some r ∧
      r.st = .error .prefixOutOfRange := ⟨_, rfl, by decide⟩

/-- A failing command, and for each group of commands one that succeeds. -/
theorem witness_FieldsWrittenOnSuccess :
    (respond strict { cw := 0x1000#16, a := x6, b := x6 }).map Response.st =
      some (.error .lengthMismatch) ∧
    [0x1800#16, 0x3800#16, 0x5800#16, 0x9080#16, 0xA800#16, 0xD07E#16, 0xF800#16].map
      (fun cw => (respond strict { cw := cw, a := x6, b := 0 }).map Response.st) =
      List.replicate 7 (some .ok) := by decide

theorem witness_FlatAndTaggedResponsesAgree :
    decode cmdS1.cw = .ok (.cmp .v4 .v4 22) ∧ ∃ r, respond strict cmdS1 = some r :=
  ⟨by decide, _, rfl⟩

end Sys2Proof.Tests
end

section
/-! PROOFS. The order of Addresses, the fields a command reads and the fields it writes. The first three
parts are general: decoding by the value of `OP`, the answer to one command alone, and the tagged result
each command gives when it succeeds. -/

namespace Sys2Proof

/-! ## Decoding by the value of `OP` -/

/-- The row of the opcode map that a value of `OP` selects (R52): `selectOp` on its three bits. -/
def Instr.ofFields (op : BitVec 3) (fa fb : Family) (p : Nat) : Instr :=
  selectOp (op.getLsbD 2) (op.getLsbD 1) (op.getLsbD 0) fa fb p

/-- The eight rows of the opcode map, by the value of `OP`. -/
theorem opcode_cases (op : BitVec 3) :
    op = 0#3 ∨ op = 1#3 ∨ op = 2#3 ∨ op = 3#3 ∨ op = 4#3 ∨ op = 5#3 ∨ op = 6#3 ∨ op = 7#3 := by
  revert op
  decide

section OpcodeRows
variable (fa fb : Family) (p : Nat)

@[simp] theorem Instr.ofFields_zero : Instr.ofFields 0#3 fa fb p = .band fa fb p := rfl
@[simp] theorem Instr.ofFields_one : Instr.ofFields 1#3 fa fb p = .bor fa fb p := rfl
@[simp] theorem Instr.ofFields_two : Instr.ofFields 2#3 fa fb p = .bxor fa fb p := rfl
@[simp] theorem Instr.ofFields_three : Instr.ofFields 3#3 fa fb p = .reserved3 fa fb p := rfl
@[simp] theorem Instr.ofFields_four : Instr.ofFields 4#3 fa fb p = .mfp fa fb p := rfl
@[simp] theorem Instr.ofFields_five : Instr.ofFields 5#3 fa fb p = .pfm fa fb p := rfl
@[simp] theorem Instr.ofFields_six : Instr.ofFields 6#3 fa fb p = .cmp fa fb p := rfl
@[simp] theorem Instr.ofFields_seven : Instr.ofFields 7#3 fa fb p = .cmpm fa fb p := rfl

end OpcodeRows

theorem decode_of_rsv_zero {cw : ControlWord} (h : rsvField cw = 0#3) :
    decode cw = .ok (.ofFields (opField cw) (faField cw) (fbField cw) (pField cw)) := by
  rw [Machine.decode_eq, if_pos h]
  rfl

theorem decode_of_rsv_ne {cw : ControlWord} (h : rsvField cw ≠ 0#3) :
    decode cw = .error (.reservedBitsSet (rsvField cw)) := by
  rw [Machine.decode_eq, if_neg h]

end Sys2Proof

namespace Sys2Proof.Machine

/-! ## The answer to one command alone -/

theorem answerTo_of_rsv_zero (cfg : Config) {c : Command} (h : rsvField c.cw = 0#3) :
    answerTo cfg c =
      resultOf (.ofFields (opField c.cw) (faField c.cw) (fbField c.cw) (pField c.cw)) cfg c := by
  simp only [answerTo, decode_of_rsv_zero h]

theorem answerTo_of_rsv_ne (cfg : Config) {c : Command} (h : rsvField c.cw ≠ 0#3) :
    answerTo cfg c = .error .illegalOperation := by
  simp only [answerTo, decode_of_rsv_ne h, raise]

/-- The unit answers every command, and with the flat form of its tagged result. -/
theorem respond_eq (cfg : Config) (c : Command) :
    respond cfg c = some (answerTo cfg c).toResponse := by
  rw [respond, step_of_queue rfl]
  rfl

@[simp] theorem Result.toResponse_error (k : ErrorKind) :
    (Result.error k).toResponse = Response.failed k := rfl

@[simp] theorem Response.failed_st (k : ErrorKind) : (Response.failed k).st = .error k := rfl

/-- Only an error has an error status, and it has nothing else (R113). -/
theorem Result.toResponse_eq_failed {x : Result} {k : ErrorKind} (h : x.toResponse.st = .error k) :
    x.toResponse = Response.failed k := by
  cases x with
  | error e => cases h; rfl
  | bytes f y => cases h
  | maskOut f m => cases h
  | prefixLen f p => cases h
  | info i => cases h

/-- A command that succeeds has `RSV` = 000 (R56), so `OP` selects its result. -/
theorem answerTo_of_success {cfg : Config} {c : Command}
    (h : (answerTo cfg c).toResponse.st = .ok) :
    answerTo cfg c =
      resultOf (.ofFields (opField c.cw) (faField c.cw) (fbField c.cw) (pField c.cw)) cfg c := by
  by_cases h0 : rsvField c.cw = 0#3
  · exact answerTo_of_rsv_zero cfg h0
  · simp [answerTo_of_rsv_ne cfg h0] at h

/-! ## What each command's result is when it succeeds -/

/-- `ByteOp` succeeds with one byte for each of its operands' (R70). -/
theorem byteOp_success {f : Byte → Byte → Byte} {fa fb : Family} {c : Command}
    (h : (byteOp f fa fb c).toResponse.st = .ok) :
    ∃ y : List Byte, y.length = fa.len ∧ byteOp f fa fb c = .bytes fa y := by
  by_cases hf : fa = fb
  · subst hf
    exact ⟨List.zipWith f (c.operandA fa) (c.operandB fa),
      by simp [Command.operandA, Command.operandB], by simp [byteOp]⟩
  · simp [byteOp, hf, raise] at h

/-- `MFP` succeeds with a mask of its family (R82). -/
theorem mfpResult_success {cfg : Config} {fa : Family} {p : Nat}
    (h : (mfpResult cfg fa p).toResponse.st = .ok) :
    mfpResult cfg fa p = .maskOut fa (maskFromPrefix p fa.len) := by
  rcases prefixGuard_cases cfg p fa false with ⟨hg, -⟩ | ⟨hg, -⟩
  · simp only [mfpResult, hg]
  · simp [mfpResult, hg, raise] at h

/-- `PFM` succeeds with the value of `PLEN` (R84). -/
theorem pfmResult_success {fb : Family} {c : Command} (h : (pfmResult fb c).toResponse.st = .ok) :
    ∃ p, pfmResult fb c = .prefixLen fb p := by
  cases hm : prefixFromMask (c.operandB fb) with
  | ok p => exact ⟨p, by simp only [pfmResult, hm]⟩
  | error e => simp [pfmResult, hm, raise] at h

/-- `CMP` succeeds with the subnet information of its operand (R95). -/
theorem guardedCompute_success {cfg : Config} {a : List Byte} {f : Family} {p : Nat}
    (h : (guardedCompute cfg a f p).toResponse.st = .ok) :
    guardedCompute cfg a f p = .info (compute a f p) := by
  rcases prefixGuard_cases cfg p f true with ⟨hg, -⟩ | ⟨hg, -⟩
  · exact guardedCompute_ok hg
  · simp [guardedCompute_error hg] at h

/-- `CMPM` succeeds with the subnet information of its operand `A`, for some `PLEN` (R96). -/
theorem cmpmResult_success {cfg : Config} {fa fb : Family} {c : Command}
    (h : (cmpmResult cfg fa fb c).toResponse.st = .ok) :
    ∃ p, cmpmResult cfg fa fb c = .info (compute (c.operandA fa) fa p) := by
  by_cases hf : fa = fb
  · subst hf
    cases hm : prefixFromMask (c.operandB fa) with
    | ok p =>
      have hc : cmpmResult cfg fa fa c = guardedCompute cfg (c.operandA fa) fa p := by
        simp [cmpmResult, hm]
      rw [hc] at h ⊢
      exact ⟨p, guardedCompute_success h⟩
    | error e => simp [cmpmResult, hm, raise] at h
  · simp [cmpmResult, hf, raise] at h

/-! ## The order of Addresses -/

/-- At the lowest index where `a` and `b` differ, `a` has the smaller byte (R21). -/
def LessAtFirstDifference (a b : List Byte) : Prop :=
  ∃ i, i < a.length ∧ (∀ j, j < i → a.getD j 0#8 = b.getD j 0#8) ∧
    (a.getD i 0#8).toNat < (b.getD i 0#8).toNat

theorem not_lessAtFirstDifference_nil (b : List Byte) : ¬ LessAtFirstDifference [] b :=
  fun ⟨_, hi, _⟩ => Nat.not_lt_zero _ hi

/-- Equal first bytes decide nothing. -/
theorem lessAtFirstDifference_cons_same (x : Byte) (as bs : List Byte) :
    LessAtFirstDifference (x :: as) (x :: bs) ↔ LessAtFirstDifference as bs := by
  constructor
  · rintro ⟨i, hi, heq, hlt⟩
    cases i with
    | zero => exact absurd hlt (Nat.lt_irrefl _)
    | succ i =>
      exact ⟨i, Nat.lt_of_succ_lt_succ hi, fun j hj => heq (j + 1) (Nat.succ_lt_succ hj), hlt⟩
  · rintro ⟨i, hi, heq, hlt⟩
    refine ⟨i + 1, Nat.succ_lt_succ hi, fun j hj => ?_, hlt⟩
    cases j with
    | zero => rfl
    | succ j => exact heq j (Nat.lt_of_succ_lt_succ hj)

/-- Different first bytes decide. -/
theorem lessAtFirstDifference_cons_ne {x y : Byte} (h : x ≠ y) (as bs : List Byte) :
    LessAtFirstDifference (x :: as) (y :: bs) ↔ x.toNat < y.toNat := by
  constructor
  · rintro ⟨i, hi, heq, hlt⟩
    cases i with
    | zero => exact hlt
    | succ i => exact absurd (heq 0 (Nat.succ_pos i)) h
  · exact fun hlt => ⟨0, Nat.succ_pos _, fun j hj => absurd hj (Nat.not_lt_zero j), hlt⟩

theorem bytesLess_iff {a b : List Byte} (hlen : a.length = b.length) :
    bytesLess a b = true ↔ LessAtFirstDifference a b := by
  induction a generalizing b with
  | nil => simp [bytesLess, not_lessAtFirstDifference_nil]
  | cons x as ih =>
    cases b with
    | nil => cases hlen
    | cons y bs =>
      by_cases hxy : x = y
      · subst hxy
        rw [lessAtFirstDifference_cons_same, ← ih (Nat.succ.inj hlen)]
        simp [bytesLess]
      · rw [lessAtFirstDifference_cons_ne hxy]
        simp [bytesLess, hxy]

theorem addressLess_of_length_eq {a b : List Byte} (h : a.length = b.length) :
    addressLess a b = some (bytesLess a b) := if_pos h

theorem addressLess_of_length_ne {a b : List Byte} (h : a.length ≠ b.length) :
    addressLess a b = none := if_neg h

/-- Byte sequences of one length are equal when every byte is (R21). -/
theorem bytes_eq_iff_getD {a b : List Byte} (h : a.length = b.length) :
    a = b ↔ ∀ i, i < a.length → a.getD i 0#8 = b.getD i 0#8 := by
  constructor
  · rintro rfl i _
    rfl
  · refine fun hb => List.ext_getElem h fun i ha hb' => ?_
    rw [← List.getD_eq_getElem a 0#8 ha, ← List.getD_eq_getElem b 0#8 hb']
    exact hb i ha

/-- Settles O12, by the recursion of `bytesLess`: its head comparison decides exactly when the first
bytes differ. -/
theorem addressOrderIsByteWise : Obligations.AddressOrderIsByteWise := by
  refine fun a b => ⟨fun hlen => ⟨bytes_eq_iff_getD hlen, ?_, ?_⟩, addressLess_of_length_ne⟩
  · rw [addressLess_of_length_eq hlen, Option.some_inj]
    exact bytesLess_iff hlen
  · rw [addressLess_of_length_eq hlen]
    cases bytesLess a b with
    | true => exact .inl rfl
    | false => exact .inr rfl

/-! ## The fields a command reads -/

section Reads
variable {cfg : Config} {c d : Command} {fa fb : Family}

theorem byteOp_congr (f : Byte → Byte → Byte) (ha : c.operandA fa = d.operandA fa)
    (hb : c.operandB fb = d.operandB fb) : byteOp f fa fb c = byteOp f fa fb d := by
  simp only [byteOp, ha, hb]

theorem pfmResult_congr (hb : c.operandB fb = d.operandB fb) :
    pfmResult fb c = pfmResult fb d := by
  simp only [pfmResult, hb]

/-- `CMPM` takes its mask with the length of `A`, but only where that is the length of `B`. -/
theorem cmpmResult_congr (ha : c.operandA fa = d.operandA fa)
    (hb : c.operandB fb = d.operandB fb) : cmpmResult cfg fa fb c = cmpmResult cfg fa fb d := by
  by_cases hf : fa = fb
  · subst hf
    simp only [cmpmResult, ha, hb]
  · simp only [cmpmResult, if_pos hf]

/-- Row by row of the table of R28: the result depends on the fields and operands the row reads. -/
theorem resultOf_ofFields_congr (cfg : Config) {op : BitVec 3} {fa' fb' : Family} {p p' : Nat}
    (hfa : (readSet op).fa = true → fa = fa') (hfb : (readSet op).fb = true → fb = fb')
    (hp : (readSet op).p = true → p = p')
    (ha : (readSet op).a = true → c.operandA fa = d.operandA fa)
    (hb : (readSet op).b = true → c.operandB fb = d.operandB fb) :
    resultOf (.ofFields op fa fb p) cfg c = resultOf (.ofFields op fa' fb' p') cfg d := by
  rcases opcode_cases op with rfl | rfl | rfl | rfl | rfl | rfl | rfl | rfl
  case' inl | inr.inl | inr.inr.inl =>
    simp only [Instr.ofFields_zero, Instr.ofFields_one, Instr.ofFields_two, resultOf]
    obtain rfl := hfa rfl
    obtain rfl := hfb rfl
    exact byteOp_congr _ (ha rfl) (hb rfl)
  · simp only [Instr.ofFields_three, resultOf]
  · simp only [Instr.ofFields_four, resultOf]
    rw [hfa rfl, hp rfl]
  · simp only [Instr.ofFields_five, resultOf]
    obtain rfl := hfb rfl
    exact pfmResult_congr (hb rfl)
  · simp only [Instr.ofFields_six, resultOf]
    obtain rfl := hfa rfl
    rw [ha rfl, hp rfl]
  · simp only [Instr.ofFields_seven, resultOf]
    obtain rfl := hfa rfl
    obtain rfl := hfb rfl
    exact cmpmResult_congr (ha rfl) (hb rfl)

theorem answerTo_congr (cfg : Config) (h : agreeOnReads c d) : answerTo cfg c = answerTo cfg d := by
  obtain ⟨hop, hrsv, hfa, hfb, hp, ha, hb⟩ := h
  by_cases h0 : rsvField c.cw = 0#3
  · rw [answerTo_of_rsv_zero cfg h0, answerTo_of_rsv_zero cfg (hrsv ▸ h0), ← hop]
    exact resultOf_ofFields_congr cfg hfa hfb hp
      (fun hr => bytesOf_congr (ha hr)) (fun hr => bytesOf_congr (hb hr))
  · rw [answerTo_of_rsv_ne cfg h0, answerTo_of_rsv_ne cfg (hrsv ▸ h0)]

end Reads

/-- Settles O25, by the eight rows of the table of R28. -/
theorem unreadFieldsMakeNoDifference : Obligations.UnreadFieldsMakeNoDifference := by
  intro cfg c d h
  rw [respond_eq, respond_eq, answerTo_congr cfg h]

/-! ## The fields a command writes -/

section Writes
variable {cfg : Config} {c : Command}

/-- A successful `BAND`, `BOR` or `BXOR` has the bytes of `Y` as its result. -/
theorem answerTo_byteOp_success (h : (answerTo cfg c).toResponse.st = .ok)
    (hop : opField c.cw = 0#3 ∨ opField c.cw = 1#3 ∨ opField c.cw = 2#3) :
    ∃ y : List Byte, y.length = (faField c.cw).len ∧ answerTo cfg c = .bytes (faField c.cw) y := by
  have hans := answerTo_of_success h
  rw [hans] at h ⊢
  rcases hop with hop | hop | hop
  · rw [hop, Instr.ofFields_zero] at h ⊢
    exact byteOp_success h
  · rw [hop, Instr.ofFields_one] at h ⊢
    exact byteOp_success h
  · rw [hop, Instr.ofFields_two] at h ⊢
    exact byteOp_success h

/-- A successful `MFP` has the bytes of `MASK` as its result. -/
theorem answerTo_mfp_success (h : (answerTo cfg c).toResponse.st = .ok) (hop : opField c.cw = 4#3) :
    answerTo cfg c =
      .maskOut (faField c.cw) (maskFromPrefix (pField c.cw) (faField c.cw).len) := by
  have hans := answerTo_of_success h
  rw [hans, hop, Instr.ofFields_four] at h ⊢
  exact mfpResult_success h

/-- A successful `PFM` has the value of `PLEN` as its result. -/
theorem answerTo_pfm_success (h : (answerTo cfg c).toResponse.st = .ok) (hop : opField c.cw = 5#3) :
    ∃ p, answerTo cfg c = .prefixLen (fbField c.cw) p := by
  have hans := answerTo_of_success h
  rw [hans, hop, Instr.ofFields_five] at h ⊢
  exact pfmResult_success h

/-- A successful `CMP` or `CMPM` has the subnet information of operand `A` as its result. -/
theorem answerTo_subnet_success (h : (answerTo cfg c).toResponse.st = .ok)
    (hop : opField c.cw = 6#3 ∨ opField c.cw = 7#3) :
    ∃ p, answerTo cfg c =
      .info (compute (c.operandA (faField c.cw)) (faField c.cw) p) := by
  have hans := answerTo_of_success h
  rw [hans] at h ⊢
  rcases hop with hop | hop
  · rw [hop, Instr.ofFields_six] at h ⊢
    exact ⟨_, guardedCompute_success h⟩
  · rw [hop, Instr.ofFields_seven] at h ⊢
    exact cmpmResult_success h

end Writes

theorem zeroFrom_zero (n : Nat) : zeroFrom n 0 := fun i _ _ => lane_zero i

theorem zeroFrom_portOfOption {o : Option (List Byte)} {n : Nat}
    (h : ∀ bs, o = some bs → bs.length ≤ n) : zeroFrom n (portOfOption o) := by
  cases o with
  | none => exact zeroFrom_zero n
  | some bs => exact zeroFrom_portOf (h bs rfl)

/-- Both ends of a host range have the length of its network address and mask. -/
theorem hostRange_lengths {network mask first last : List Byte} {n : Nat}
    (hn : network.length = n) (hm : mask.length = n)
    (h : hostRange network mask = some (first, last)) : first.length = n ∧ last.length = n := by
  cases hu : usable mask with
  | false => rw [hostRange_of_not_usable hu] at h; cases h
  | true =>
    rw [hostRange_of_usable hu] at h
    cases h
    simp [hn, hm]

/-- Both ends of the range `Compute` gives, where there is one, have the length of the address. -/
theorem compute_range_lengths {a first last : List Byte} {f : Family} {p : Nat}
    (ha : a.length = f.len) (h : (compute a f p).range = some (first, last)) :
    first.length = f.len ∧ last.length = f.len :=
  hostRange_lengths (by simp [ha]) (by simp) h

/-- Every field of the flat subnet information of an address of family `f` has zero lanes from
`len(f)` up. -/
theorem zeroFrom_info_toResponse {a : List Byte} {f : Family} {p : Nat} {r : Response}
    (ha : a.length = f.len) (hr : r = (Result.info (compute a f p)).toResponse) :
    zeroFrom f.len r.addr ∧ zeroFrom f.len r.net ∧ zeroFrom f.len r.mask ∧
      zeroFrom f.len r.first ∧ zeroFrom f.len r.last := by
  subst hr
  refine ⟨zeroFrom_portOf ha.le, zeroFrom_portOf (by simp [ha]), zeroFrom_portOf (by simp),
    zeroFrom_portOfOption fun bs hbs => ?_, zeroFrom_portOfOption fun bs hbs => ?_⟩
  · obtain ⟨⟨first, last⟩, hrange, rfl⟩ := Option.map_eq_some_iff.mp hbs
    exact (compute_range_lengths ha hrange).1.le
  · obtain ⟨⟨first, last⟩, hrange, rfl⟩ := Option.map_eq_some_iff.mp hbs
    exact (compute_range_lengths ha hrange).2.le

/-- Without a host range `FIRST` and `LAST` are zero (R30, R93). -/
theorem info_toResponse_absent {i : SubnetInfo} (h : (Result.info i).toResponse.hr = false) :
    (Result.info i).toResponse.first = 0 ∧ (Result.info i).toResponse.last = 0 := by
  have hnone : i.range = none := by simpa [Result.toResponse] using h
  simp [Result.toResponse, hnone, portOfOption]

/-- Settles O50, by what the tagged result of each group of commands is when it succeeds. -/
theorem fieldsWrittenOnSuccess : Obligations.FieldsWrittenOnSuccess := by
  refine ⟨fun cfg c r k hr hst => ?_, fun cfg c r hr hst => ?_⟩
  · cases (respond_eq cfg c).symm.trans hr
    exact Result.toResponse_eq_failed hst
  · cases (respond_eq cfg c).symm.trans hr
    refine ⟨fun hop => ?byteOp, fun hop => ?mfp, fun hop => ?pfm, fun hop => ?subnet⟩
    case byteOp =>
      obtain ⟨y, hy, h⟩ := answerTo_byteOp_success hst hop
      rw [h]
      exact ⟨rfl, rfl, zeroFrom_portOf hy.le⟩
    case mfp =>
      rw [answerTo_mfp_success hst hop]
      exact ⟨rfl, rfl, zeroFrom_portOf (maskFromPrefix_length _ _).le⟩
    case pfm =>
      obtain ⟨p, h⟩ := answerTo_pfm_success hst hop
      rw [h]
      exact ⟨rfl, rfl⟩
    case subnet =>
      obtain ⟨p, h⟩ := answerTo_subnet_success hst hop
      rw [h]
      obtain ⟨haddr, hnet, hmask, hfirst, hlast⟩ :=
        zeroFrom_info_toResponse (p := p) (bytesOf_length (faField c.cw) c.a) rfl
      exact ⟨rfl, rfl, haddr, hnet, hmask, hfirst, hlast, info_toResponse_absent⟩

end Sys2Proof.Machine
end

section
/-! PROOFS. Byte lanes on a port, and a run to the end of the queue. A port filled with bytes is read as a
number lane by lane, each lane above all that follow it; a run takes one command off the queue after the
other, each step by what a step with a command on the ports does. -/

namespace Sys2Proof.Machine

/-! ## The number a byte sequence spells (R42) -/

@[simp] theorem bytesValue_nil : bytesValue [] = 0 := rfl

/-- Bytes read after the number `n` stand below it. -/
theorem foldl_bytes_eq (bs : List Byte) (n : Nat) :
    bs.foldl (fun n b => n * 256 + b.toNat) n = n * 2 ^ (8 * bs.length) + bytesValue bs := by
  induction bs generalizing n with
  | nil => simp
  | cons v vs ih =>
    simp only [bytesValue, List.foldl_cons, List.length_cons]
    rw [ih (n * 256 + v.toNat), ih (0 * 256 + v.toNat), Nat.mul_succ 8, Nat.pow_add]
    ring

/-- The first byte is the most significant. -/
theorem bytesValue_cons (v : Byte) (vs : List Byte) :
    bytesValue (v :: vs) = v.toNat * 2 ^ (8 * vs.length) + bytesValue vs := by
  rw [bytesValue, List.foldl_cons, foldl_bytes_eq, Nat.zero_mul, Nat.zero_add]

theorem bytesValue_lt (bs : List Byte) : bytesValue bs < 2 ^ (8 * bs.length) := by
  induction bs with
  | nil => simp
  | cons v vs ih =>
    have hv : v.toNat + 1 ≤ 2 ^ 8 := v.isLt
    calc bytesValue (v :: vs)
        = v.toNat * 2 ^ (8 * vs.length) + bytesValue vs := bytesValue_cons v vs
      _ < v.toNat * 2 ^ (8 * vs.length) + 2 ^ (8 * vs.length) := Nat.add_lt_add_left ih _
      _ = (v.toNat + 1) * 2 ^ (8 * vs.length) := (Nat.succ_mul _ _).symm
      _ ≤ 2 ^ 8 * 2 ^ (8 * vs.length) := Nat.mul_le_mul_right _ hv
      _ = 2 ^ (8 * (v :: vs).length) := by rw [← Nat.pow_add, List.length_cons]; congr 1; omega

/-! ## A port as a number (R43) -/

/-- A byte in a lane is the byte shifted up to the lane's lowest bit; none of its bits is lost. -/
theorem inLane_toNat (i : Nat) (v : Byte) : (inLane i v).toNat = v.toNat <<< (120 - 8 * i) := by
  have hlt : v.toNat <<< (120 - 8 * i) < 2 ^ 128 :=
    calc v.toNat <<< (120 - 8 * i)
        = v.toNat * 2 ^ (120 - 8 * i) := Nat.shiftLeft_eq _ _
      _ < 2 ^ 8 * 2 ^ (120 - 8 * i) := Nat.mul_lt_mul_of_pos_right v.isLt (Nat.two_pow_pos _)
      _ = 2 ^ (8 + (120 - 8 * i)) := (Nat.pow_add _ _ _).symm
      _ ≤ 2 ^ 128 := Nat.pow_le_pow_right (by decide) (by omega)
  rw [inLane, BitVec.toNat_shiftLeft, BitVec.toNat_setWidth_of_le (by decide),
    Nat.mod_eq_of_lt hlt]

/-- The bytes in the lanes from `i` up, with `k` lanes left below them, are their number shifted left by
`k` lanes: what follows a byte fits below its lane, so joining the lanes adds their numbers. -/
theorem portFrom_toNat (bs : List Byte) (i k : Nat) (h : i + bs.length + k = 16) :
    (portFrom i bs).toNat = bytesValue bs * 2 ^ (8 * k) := by
  induction bs generalizing i with
  | nil => simp [portFrom]
  | cons v vs ih =>
    rw [List.length_cons] at h
    have hshift : 120 - 8 * i = 8 * vs.length + 8 * k := by omega
    have hbelow : bytesValue vs * 2 ^ (8 * k) < 2 ^ (8 * vs.length + 8 * k) := by
      rw [Nat.pow_add]
      exact Nat.mul_lt_mul_of_pos_right (bytesValue_lt vs) (Nat.two_pow_pos _)
    calc (portFrom i (v :: vs)).toNat
        = v.toNat <<< (8 * vs.length + 8 * k) ||| bytesValue vs * 2 ^ (8 * k) := by
          rw [portFrom, BitVec.toNat_or, inLane_toNat, ih (i + 1) (by omega), hshift]
      _ = v.toNat <<< (8 * vs.length + 8 * k) + bytesValue vs * 2 ^ (8 * k) :=
          (Nat.shiftLeft_add_eq_or_of_lt hbelow _).symm
      _ = bytesValue (v :: vs) * 2 ^ (8 * k) := by
          rw [bytesValue_cons, Nat.shiftLeft_eq, Nat.pow_add, Nat.add_mul, Nat.mul_assoc]

/-- A byte sequence on a port, with `k` lanes beyond its end. -/
theorem portOf_toNat (bs : List Byte) (k : Nat) (h : bs.length + k = 16) :
    (portOf bs).toNat = bytesValue bs * 2 ^ (8 * k) :=
  portFrom_toNat bs 0 k (by omega)

/-- The first four lanes lie in port bits `[127:96]`. -/
theorem lane_eq_of_topBits (x : Port) {i : Nat} (hi : i < 4) :
    lane x i = (x.extractLsb' 96 32).extractLsb' (24 - 8 * i) 8 := by
  apply BitVec.eq_of_getLsbD_eq
  intro j hj
  rw [lane_getLsbD x i j hj]
  simp only [BitVec.getLsbD_extractLsb', hj, show 24 - 8 * i + j < 32 by omega, decide_true,
    Bool.true_and]
  congr 1
  omega

/-- Settles O10: the two numbers are one law, with no lane and with twelve lanes beyond the bytes. -/
theorem lanesOnThePorts : Obligations.LanesOnThePorts := by
  refine ⟨fun x i j _ hj => lane_getLsbD x i j hj, fun bs h => ?v6, fun bs h => ?v4,
    fun x y h => ?ignored, by decide⟩
  case v6 => simpa using portOf_toNat bs 0 (by omega)
  case v4 => exact portOf_toNat bs 12 (by omega)
  case ignored =>
    refine bytesOf_congr fun i hi => ?_
    rw [lane_eq_of_topBits x hi, lane_eq_of_topBits y hi, h]

/-! ## A run to the end of the queue (R46, R118) -/

theorem run_succ_of_step {M : Host.Core} {s t : M.State} (h : M.step s = .next t) (k : Nat) :
    M.run (k + 1) s = M.run k t := by
  simp only [Host.Core.run, h]

/-- The same of the unit's own step. -/
theorem run_core_of_step {s t : State} (h : step s = .next t) (k : Nat) :
    Host.Core.run core (k + 1) s = Host.Core.run core k t :=
  run_succ_of_step (M := core) (s := s) (t := t) h k

/-- A run of one step for each queued command delivers the answers to the commands, in their order. -/
theorem run_of_queue (cfg : Config) (cs : List Command) (rs : List Response) :
    Host.Core.run core cs.length { config := cfg, queue := cs, responses := rs : State } =
      .next { config := cfg, queue := [],
              responses := rs ++ cs.map fun c => (answerTo cfg c).toResponse : State } := by
  induction cs generalizing rs with
  | nil => rw [List.map_nil, List.append_nil]; rfl
  | cons c rest ih =>
    rw [List.length_cons, run_core_of_step (step_of_queue rfl), ih, List.map_cons,
      List.append_assoc, List.singleton_append]

/-- Settles O24: the answers a run delivers are those `respond` gives to each command alone. -/
theorem runAnswersEachCommandAsIfAlone : Obligations.RunAnswersEachCommandAsIfAlone := by
  intro s
  refine ⟨_, run_of_queue s.config s.queue s.responses, ?_⟩
  rw [List.map_map]
  exact List.map_congr_left fun c _ => (respond_eq s.config c).symm

end Sys2Proof.Machine
end

section
/-! PROOFS. The format of a control word and of a status word, the opcode map, and the illegal control
words. Both words are `controlWord` of their fields, so the place of a field is said once for both; and a
control word is `controlWord` of the fields read from it, so what the mask `0xE700` leaves of it is known
from what it leaves of that. -/

namespace Sys2Proof

@[simp] theorem Family.tag_ofTag (b : Bool) : (Family.ofTag b).tag = b := by
  cases b <;> rfl

@[simp] theorem Instr.opcode_ofFields (op : BitVec 3) (fa fb : Family) (p : Nat) :
    (Instr.ofFields op fa fb p).opcode = op := by
  rcases opcode_cases op with rfl | rfl | rfl | rfl | rfl | rfl | rfl | rfl <;> rfl

end Sys2Proof

namespace Sys2Proof.Machine

/-! ## Where the five fields stand (R50, R51) -/

theorem controlWord_fields (op : BitVec 3) (fa fb : Family) (rsv : BitVec 3) (p : BitVec 8) :
    (controlWord op fa fb rsv p).extractLsb' 13 3 = op ∧
    (controlWord op fa fb rsv p).getLsbD 12 = fa.tag ∧
    (controlWord op fa fb rsv p).getLsbD 11 = fb.tag ∧
    (controlWord op fa fb rsv p).extractLsb' 8 3 = rsv ∧
    (controlWord op fa fb rsv p).extractLsb' 0 8 = p :=
  ⟨opField_controlWord .., controlWord_getLsbD .., controlWord_getLsbD .., rsvField_controlWord ..,
    BitVec.eq_of_toNat_eq (pField_controlWord ..)⟩

/-- A status word has the format of a control word, with `ST` for `OP`, `FR` for `FA`, `HR` for `FB` and
`PLEN` for `P` (R51). -/
theorem sw_eq_controlWord (r : Response) :
    r.sw = controlWord r.st.code r.fr (.ofTag r.hr) 0#3 r.plen := by
  rw [Response.sw, controlWord, Family.tag_ofTag]

/-- Settles O5: the word of an instruction is `controlWord` of its fields, and a well-formed `P` fits
its eight bits. -/
theorem controlWordFields : Obligations.ControlWordFields := by
  intro i hwf
  have hp : i.pField < 2 ^ 8 := by simpa [Instr.wellFormed] using hwf
  obtain ⟨hop, hfa, hfb, hrsv, hbits⟩ :=
    controlWord_fields i.opcode i.faTag i.fbTag 0#3 (BitVec.ofNat 8 i.pField)
  rw [encode_eq_controlWord]
  refine ⟨hop, hfa, hfb, hrsv, ?_⟩
  rw [hbits, BitVec.toNat_ofNat, Nat.mod_eq_of_lt hp]

/-- Settles O8: a status word is `controlWord` of the response's fields. -/
theorem statusWordFields : Obligations.StatusWordFields := by
  intro r
  rw [sw_eq_controlWord]
  simpa only [Family.tag_ofTag] using
    controlWord_fields r.st.code r.fr (.ofTag r.hr) 0#3 r.plen

/-! ## The opcode map (R52) -/

/-- No bit of a control word lies outside its five fields. -/
theorem controlWord_of_fields (cw : ControlWord) :
    controlWord (opField cw) (faField cw) (fbField cw) (rsvField cw) (cw.extractLsb' 0 8) = cw := by
  apply BitVec.eq_of_getLsbD_eq
  intro i hi
  rw [controlWord_getLsbD]
  interval_cases i <;> simp [opField, faField, fbField, rsvField]

/-- The mask `0xE700` keeps `OP`. -/
theorem opField_mask (cw : ControlWord) : opField (cw &&& 0xE700#16) = opField cw := by
  apply BitVec.eq_of_getLsbD_eq
  intro i hi
  interval_cases i <;> simp [opField]

/-- The mask `0xE700` keeps `RSV`. -/
theorem rsvField_mask (cw : ControlWord) : rsvField (cw &&& 0xE700#16) = rsvField cw := by
  apply BitVec.eq_of_getLsbD_eq
  intro i hi
  interval_cases i <;> simp [rsvField]

/-- The match value `OP << 13` is the word with that `OP` and all else zero. -/
theorem match_eq_controlWord (op : BitVec 3) :
    op.setWidth 16 <<< 13 = controlWord op .v4 .v4 0#3 0#8 := by
  revert op
  decide

/-- The bits under the mask are `OP << 13` exactly when `RSV` is zero and `OP` is that value. -/
theorem mask_eq_match_iff (cw : ControlWord) (op : BitVec 3) :
    cw &&& 0xE700#16 = op.setWidth 16 <<< 13 ↔ rsvField cw = 0#3 ∧ opField cw = op := by
  constructor
  · intro h
    rw [match_eq_controlWord] at h
    rw [← rsvField_mask, ← opField_mask, h]
    exact ⟨rsvField_controlWord .., opField_controlWord ..⟩
  · rintro ⟨hrsv, rfl⟩
    have hcw := controlWord_of_fields cw
    rw [hrsv] at hcw
    calc cw &&& 0xE700#16
        = controlWord (opField cw) (faField cw) (fbField cw) 0#3 (cw.extractLsb' 0 8)
            &&& 0xE700#16 := by rw [hcw]
      _ = (opField cw).setWidth 16 <<< 13 := Laws.TableRow.under_mask _ _ _ _

/-- A word decodes to an instruction of a row exactly when `RSV` is zero and `OP` is the row's (R54). -/
theorem decodes_to_row_iff (cw : ControlWord) (op : BitVec 3) :
    (∃ fa fb p, decode cw = .ok (.ofFields op fa fb p)) ↔ rsvField cw = 0#3 ∧ opField cw = op := by
  constructor
  · rintro ⟨fa, fb, p, h⟩
    by_cases hrsv : rsvField cw = 0#3
    · rw [decode_of_rsv_zero hrsv] at h
      have hop := congrArg Instr.opcode (Except.ok.inj h)
      rw [Instr.opcode_ofFields, Instr.opcode_ofFields] at hop
      exact ⟨hrsv, hop⟩
    · rw [decode_of_rsv_ne hrsv] at h
      cases h
  · rintro ⟨hrsv, rfl⟩
    exact ⟨_, _, _, decode_of_rsv_zero hrsv⟩

theorem mask_eq_match_iff_decodes_to_row (cw : ControlWord) (op : BitVec 3) :
    cw &&& 0xE700#16 = op.setWidth 16 <<< 13 ↔
      ∃ fa fb p, decode cw = .ok (.ofFields op fa fb p) :=
  (mask_eq_match_iff cw op).trans (decodes_to_row_iff cw op).symm

/-- Settles O6: both sides say `RSV` = 000 and `OP` = the row's value, so the eight rows are one law. -/
theorem opcodeMapIsMaskAndMatch : Obligations.OpcodeMapIsMaskAndMatch := by
  intro cw
  have row := mask_eq_match_iff_decodes_to_row cw
  exact ⟨row 0#3, row 1#3, row 2#3, row 3#3, row 4#3, row 5#3, row 6#3, row 7#3⟩

/-! ## Illegal control words (R56) -/

/-- Case (a), `RSV /= 000`, is answered so because the word is no instruction; case (b), `OP` = 3 with
`RSV` = 000, because the reserved row's meaning is that error. -/
theorem answerTo_of_illegal (cfg : Config) {c : Command}
    (h : rsvField c.cw ≠ 0#3 ∨ opField c.cw = 3#3) :
    answerTo cfg c = .error .illegalOperation := by
  by_cases hrsv : rsvField c.cw = 0#3
  · have hop : opField c.cw = 3#3 := h.resolve_left (not_not_intro hrsv)
    rw [answerTo_of_rsv_zero cfg hrsv, hop, Instr.ofFields_three]
    rfl
  · exact answerTo_of_rsv_ne cfg hrsv

/-- Settles O17, by the answer to an illegal word and what a step with a command on the ports does. -/
theorem illegalControlWordsAreAnswered : Obligations.IllegalControlWordsAreAnswered := by
  intro s c rest hq hill
  refine ⟨?_, by decide⟩
  rw [step_of_queue hq, answerTo_of_illegal s.config hill]
  rfl

end Sys2Proof.Machine
end

section
/-! PROOFS. The commands `BAND`, `BOR`, `BXOR` (R70 to R74). The three are one command with three lane
functions, so what the rules say of it is proved once, for a row of the opcode map whose meaning is
`byteOp` of some lane function; each command then adds only what is true of its own function of two bytes.
-/

namespace Sys2Proof.Machine

/-! ## Encoding and illegal words of a row -/

/-- Every instruction has its row's format, whatever the row is (R50). -/
theorem encode_ofFields (op : BitVec 3) (fa fb : Family) (p : Nat) :
    encode (.ofFields op fa fb p) = controlWord op fa fb 0#3 (BitVec.ofNat 8 p) := by
  rcases opcode_cases op with rfl | rfl | rfl | rfl | rfl | rfl | rfl | rfl <;> rfl

theorem decode_controlWord (op : BitVec 3) (fa fb : Family) (p : BitVec 8) :
    decode (controlWord op fa fb 0#3 p) = .ok (.ofFields op fa fb p.toNat) := by
  rw [decode_of_rsv_zero (rsvField_controlWord ..), opField_controlWord, faField_controlWord,
    fbField_controlWord, pField_controlWord]

/-- A word with `RSV /= 000` is answered with `IllegalOperation`, whatever its `OP` is (R56 case (a)). -/
theorem step_of_rsv_ne {s : State} {c : Command} {rest : List Command} (hq : s.queue = c :: rest)
    (h : rsvField c.cw ≠ 0#3) :
    step s = .next (s.answered rest (Response.failed .illegalOperation)) := by
  rw [step_of_queue hq, answerTo_of_rsv_ne s.config h]
  rfl

/-- What the unit alone answers to the word of an instruction whose `P` is zero. -/
theorem respond_encode_ofFields (cfg : Config) (op : BitVec 3) (fa fb : Family) (a b : Port) :
    respond cfg { cw := encode (.ofFields op fa fb 0), a := a, b := b } =
      some (resultOf (.ofFields op fa fb 0) cfg
        { cw := encode (.ofFields op fa fb 0), a := a, b := b }).toResponse := by
  simp only [respond_eq, answerTo, encode_ofFields, decode_controlWord]
  rfl

/-! ## A port computed lane by lane -/

/-- Lane `i` of a byte sequence of a family's length, put on a port. -/
theorem lane_portOf_of_length {f : Family} {bs : List Byte} {i : Nat} (hlen : bs.length = f.len)
    (hi : i < f.len) : lane (portOf bs) i = bs.getD i 0#8 :=
  lane_portOf bs i (hlen.trans_le f.len_le) (hi.trans_le f.len_le)

/-- The port `Y` of R70: `g` of the two operands' bytes in each lane of the family, zero beyond. -/
def lanewise (g : Byte → Byte → Byte) (f : Family) (a b : Port) : Port :=
  portOf (List.zipWith g (bytesOf f a) (bytesOf f b))

section Lanewise
variable (g : Byte → Byte → Byte) {f : Family} (a b : Port)

theorem lane_lanewise {i : Nat} (hi : i < f.len) :
    lane (lanewise g f a b) i = g (lane a i) (lane b i) := by
  rw [lanewise, lane_portOf_of_length (by simp) hi]
  simp [bytesOf, hi]

theorem zeroFrom_lanewise (f : Family) : zeroFrom f.len (lanewise g f a b) :=
  zeroFrom_portOf (by simp)

variable {g a b}

/-- A port that is right in the lanes of the family and zero beyond them is `Y`. -/
theorem lanewise_eq_of_lanes {y : Port} (h : ∀ i, i < f.len → g (lane a i) (lane b i) = lane y i)
    (hz : zeroFrom f.len y) : lanewise g f a b = y := by
  refine port_ext fun i hi => ?_
  by_cases hf : i < f.len
  · rw [lane_lanewise g a b hf, h i hf]
  · rw [zeroFrom_lanewise g a b f i (Nat.le_of_not_lt hf) hi, hz i (Nat.le_of_not_lt hf) hi]

theorem lanewise_eq_zero (h : ∀ i, i < f.len → g (lane a i) (lane b i) = 0#8) :
    lanewise g f a b = 0 :=
  lanewise_eq_of_lanes (fun i hi => (h i hi).trans (lane_zero i).symm) (zeroFrom_zero f.len)

end Lanewise

/-- A byte sequence read off a port stands in its lanes again. -/
theorem lane_portOf_bytesOf (x : Port) {f : Family} {i : Nat} (hi : i < f.len) :
    lane (portOf (bytesOf f x)) i = lane x i := by
  rw [lane_portOf_of_length (bytesOf_length f x) hi, bytesOf_getD f x i hi]

/-- A mask on a port, within its bit length. -/
theorem lane_portOf_maskFromPrefix {f : Family} {p i : Nat} (hp : p ≤ f.bitlen) (hi : i < f.len) :
    lane (portOf (maskFromPrefix p f.len)) i = maskByte p i := by
  rw [lane_portOf_of_length (maskFromPrefix_length p f.len) hi, maskFromPrefix_getD hp hi]

@[simp] theorem maskByte_zero (i : Nat) : maskByte 0 i = 0x00#8 := by
  simp [maskByte]

/-- The mask of the full length is all ones (R81). -/
theorem maskByte_bitlen {f : Family} {i : Nat} (hi : i < f.len) : maskByte f.bitlen i = 0xFF#8 := by
  have h : f.bitlen ≥ (i + 1) * 8 := by
    unfold Family.bitlen
    omega
  exact if_pos h

/-! ## A byte against 0xFF -/

theorem byte_and_ones (x : Byte) : x &&& 0xFF#8 = x := BitVec.and_allOnes

theorem byte_or_ones (x : Byte) : x ||| 0xFF#8 = 0xFF#8 := BitVec.or_allOnes

theorem byte_xor_ones (x : Byte) : x ^^^ 0xFF#8 = ~~~ x := BitVec.xor_allOnes

/-! ## `ByteOp` (R70) -/

theorem byteOp_of_ne (g : Byte → Byte → Byte) {fa fb : Family} (h : fa ≠ fb) (c : Command) :
    byteOp g fa fb c = .error .lengthMismatch := if_pos h

theorem byteOp_self (g : Byte → Byte → Byte) (f : Family) (c : Command) :
    byteOp g f f c = .bytes f (List.zipWith g (bytesOf f c.a) (bytesOf f c.b)) :=
  if_neg (not_not_intro rfl)

/-- With a commutative lane function the two operands can be exchanged with their families, and where the
families differ it is the same error (R74). -/
theorem byteOp_swap {g : Byte → Byte → Byte} (hg : ∀ x y, g x y = g y x) (fa fb : Family)
    (c : Command) : byteOp g fb fa { c with a := c.b, b := c.a } = byteOp g fa fb c := by
  by_cases hf : fa = fb
  · subst hf
    rw [byteOp_self, byteOp_self, List.zipWith_comm_of_comm hg]
  · rw [byteOp_of_ne g hf, byteOp_of_ne g (Ne.symm hf)]

/-- The row `op` of the opcode map means `ByteOp` with the lane function `g`. -/
def IsByteOpRow (op : BitVec 3) (g : Byte → Byte → Byte) : Prop :=
  ∀ (fa fb : Family) (p : Nat) (cfg : Config) (c : Command),
    resultOf (.ofFields op fa fb p) cfg c = byteOp g fa fb c

theorem band_isByteOpRow : IsByteOpRow 0b000#3 (fun x y => x &&& y) := fun _ _ _ _ _ => rfl
theorem bor_isByteOpRow : IsByteOpRow 0b001#3 (fun x y => x ||| y) := fun _ _ _ _ _ => rfl
theorem bxor_isByteOpRow : IsByteOpRow 0b010#3 (fun x y => x ^^^ y) := fun _ _ _ _ _ => rfl

section ByteOpRow
variable {op : BitVec 3} {g : Byte → Byte → Byte}

/-- All that R70 says of such a row. -/
theorem IsByteOpRow.byteOpCommand (h : IsByteOpRow op g) :
    Machine.byteOpCommand op (Instr.ofFields op) g := by
  refine ⟨decode_controlWord op, fun s c rest fa fb rsv p hq hcw hrsv => ?illegal,
    fun s c rest fa fb p hq hne => ?mismatch, fun s c rest f p hq => ?success⟩
  case illegal =>
    refine step_of_rsv_ne hq ?_
    rwa [hcw, rsvField_controlWord]
  case mismatch =>
    rw [exec_of_queue hq, h, byteOp_of_ne g hne]
    rfl
  case success =>
    refine ⟨lanewise g f c.a c.b, ?_, fun i hi => lane_lanewise g c.a c.b hi,
      zeroFrom_lanewise g c.a c.b f⟩
    rw [exec_of_queue hq, h, byteOp_self]
    rfl

/-- What such a row answers to two operands of one family, and nothing else is its answer. -/
theorem IsByteOpRow.answersY_iff (h : IsByteOpRow op g) (cfg : Config) (f : Family) (a b y : Port) :
    answersY cfg (.ofFields op f f 0) a b f y ↔ lanewise g f a b = y := by
  rw [answersY, respond_encode_ofFields, h, byteOp_self]
  constructor
  · exact fun hy => congrArg Response.y (Option.some.inj hy)
  · rintro rfl
    rfl

theorem IsByteOpRow.exec_swap (h : IsByteOpRow op g) (hg : ∀ x y, g x y = g y x) {s : State}
    {c : Command} {rest : List Command} (hq : s.queue = c :: rest) (fa fb : Family) (p : Nat) :
    exec (.ofFields op fa fb p) s =
      exec (.ofFields op fb fa p)
        { s with queue := { c with a := c.b, b := c.a } :: rest } := by
  rw [exec_of_queue hq, exec_of_queue rfl, h, h, byteOp_swap hg]

end ByteOpRow

/-! ## The three commands and their laws (R71 to R74) -/

/-- Settles O28: `BAND` is a `ByteOp` row, and its corner cases are those of `&` in a lane. -/
theorem bandAndsLaneByLane : Obligations.BandAndsLaneByLane := by
  refine ⟨band_isByteOpRow.byteOpCommand, fun cfg f a b y h => ?corners,
    fun cfg => (band_isByteOpRow.answersY_iff cfg ..).mpr (by decide)⟩
  obtain rfl := (band_isByteOpRow.answersY_iff cfg f a b y).mp h
  refine ⟨fun hb => lanewise_eq_zero fun i hi => ?zeros, fun hb i hi => ?ones,
    fun hab i hi => ?same⟩
  case zeros => simp [hb i hi]
  case ones => rw [lane_lanewise _ a b hi, hb i hi, byte_and_ones]
  case same => rw [lane_lanewise _ a b hi, ← hab i hi, BitVec.and_self]

/-- Settles O29: `BOR` is a `ByteOp` row, and its corner cases are those of `|` in a lane. -/
theorem borOrsLaneByLane : Obligations.BorOrsLaneByLane := by
  refine ⟨bor_isByteOpRow.byteOpCommand, fun cfg f a b y h => ?corners,
    fun cfg => (bor_isByteOpRow.answersY_iff cfg ..).mpr (by decide)⟩
  obtain rfl := (bor_isByteOpRow.answersY_iff cfg f a b y).mp h
  refine ⟨fun hb i hi => ?zeros, fun hb i hi => ?ones, fun hab i hi => ?same⟩
  case zeros => simp [lane_lanewise _ a b hi, hb i hi]
  case ones => rw [lane_lanewise _ a b hi, hb i hi, byte_or_ones]
  case same => rw [lane_lanewise _ a b hi, ← hab i hi, BitVec.or_self]

/-- Settles O30: `BXOR` is a `ByteOp` row, and its corner cases are those of `^` in a lane. -/
theorem bxorXorsLaneByLane : Obligations.BxorXorsLaneByLane := by
  refine ⟨bxor_isByteOpRow.byteOpCommand, fun cfg f a b y h => ?corners,
    fun cfg => (bxor_isByteOpRow.answersY_iff cfg ..).mpr (by decide)⟩
  obtain rfl := (bxor_isByteOpRow.answersY_iff cfg f a b y).mp h
  refine ⟨fun hb i hi => ?zeros, fun hb i hi => ?ones,
    fun hab => lanewise_eq_zero fun i hi => ?same⟩
  case zeros => simp [lane_lanewise _ a b hi, hb i hi]
  case ones => rw [lane_lanewise _ a b hi, hb i hi, byte_xor_ones]
  case same => rw [← hab i hi, BitVec.xor_self]

/-- Settles O31: `&`, `|` and `^` commute in a lane, and the masks of length 0 and of the full length are
0x00 and 0xFF in every lane. -/
theorem byteOpLaws : Obligations.ByteOpLaws := by
  refine ⟨fun s c rest fa fb p hq =>
      ⟨band_isByteOpRow.exec_swap BitVec.and_comm hq fa fb p,
        bor_isByteOpRow.exec_swap BitVec.or_comm hq fa fb p,
        bxor_isByteOpRow.exec_swap BitVec.xor_comm hq fa fb p⟩,
    fun cfg f a =>
      ⟨(band_isByteOpRow.answersY_iff cfg ..).mpr (lanewise_eq_zero fun i hi => ?noMask),
        (band_isByteOpRow.answersY_iff cfg ..).mpr
          (lanewise_eq_of_lanes (fun i hi => ?fullMask) (zeroFrom_portOf (bytesOf_length f a).le))⟩⟩
  case noMask =>
    rw [lane_portOf_maskFromPrefix (Nat.zero_le _) hi, maskByte_zero, BitVec.and_zero]
  case fullMask =>
    rw [lane_portOf_maskFromPrefix le_rfl hi, maskByte_bitlen hi, byte_and_ones,
      lane_portOf_bytesOf a hi]

end Sys2Proof.Machine
end

section
/-! PROOFS. Masks and the commands `MFP` and `PFM` (R81 to R84). A byte is canonical when it is
a key of the table `canonicalBytes`, so every fact about one canonical byte is a fact about the nine rows
of that table; what is said of a sequence, and of the lanes of a port, follows from it. -/

namespace Sys2Proof.Machine

/-! ## What a mask byte contributes (R83) -/

theorem isCanonicalByte_iff_mem (b : Byte) :
    isCanonicalByte b = true ↔ b ∈ canonicalBytes.map Prod.fst := List.contains_iff_mem

/-- A fact of the nine rows of the table holds of every canonical byte. -/
theorem forall_canonicalByte {P : Byte → Prop} (rows : ∀ e ∈ canonicalBytes, P e.1) {b : Byte}
    (h : isCanonicalByte b = true) : P b := by
  obtain ⟨e, he, rfl⟩ := List.mem_map.mp ((isCanonicalByte_iff_mem b).mp h)
  exact rows e he

theorem contribution_of_canonical {b : Byte} (h : isCanonicalByte b = true) :
    contribution b = some (onesIn b) :=
  forall_canonicalByte (P := fun b => contribution b = some (onesIn b)) (by decide) h

/-- The formula of R83: `1 + (b XOR 0xFF)` is two to the number of 0-bits of `b`. -/
theorem onesIn_eq_log2 {b : Byte} (h : isCanonicalByte b = true) :
    onesIn b = 8 - Nat.log2 (1 + (b ^^^ 0xFF#8).toNat) :=
  forall_canonicalByte (P := fun b => onesIn b = 8 - Nat.log2 (1 + (b ^^^ 0xFF#8).toNat))
    (by decide) h

theorem contribution_of_not_canonical {b : Byte} (h : ¬ isCanonicalByte b = true) :
    contribution b = none := by
  refine List.lookup_eq_none_iff.mpr fun e he => ?_
  have hne : b ≠ e.1 := by
    rintro rfl
    exact h ((isCanonicalByte_iff_mem _).mpr (List.mem_map_of_mem he))
  simpa using hne

theorem onesIn_le (b : Byte) : onesIn b ≤ 8 := List.countP_le_length

/-! ## The reducer of masks (R83) -/

theorem prefixFromMask_of_canonical {m : List Byte} (h : m.all isCanonicalByte = true) :
    prefixFromMask m = .ok (m.map onesIn).sum := by
  induction m with
  | nil => rfl
  | cons b bs ih =>
    obtain ⟨hb, hbs⟩ := Bool.and_eq_true_iff.mp h
    rw [prefixFromMask_cons_some (contribution_of_canonical hb), ih hbs]
    rfl

/-- One byte that is not canonical leaves the sum without a term. -/
theorem prefixFromMask_of_not_canonical {m : List Byte} (h : m.all isCanonicalByte = false) :
    prefixFromMask m = .error .invalidSubnetMask := by
  obtain ⟨b, hb, hbad⟩ := List.all_eq_false.mp h
  rcases prefixFromMask_cases m with ⟨ks, hks, -⟩ | ⟨-, herr⟩
  · have hnone : none ∈ ks.map some := by
      rw [← hks, ← contribution_of_not_canonical hbad]
      exact List.mem_map_of_mem hb
    simp at hnone
  · exact herr

theorem sum_onesIn_le (m : List Byte) : (m.map onesIn).sum ≤ 8 * m.length := by
  induction m with
  | nil => rfl
  | cons b bs ih =>
    have hb := onesIn_le b
    simp only [List.map_cons, List.sum_cons, List.length_cons]
    omega

/-- Settles O39: a byte by the table of R83, a sequence byte by byte. -/
theorem maskBytesContribute : Obligations.MaskBytesContribute := by
  refine ⟨fun b => ?formula, fun b => contribution_of_canonical,
    fun m h => ⟨prefixFromMask_of_canonical h, sum_onesIn_le m⟩,
    fun m => prefixFromMask_of_not_canonical, by decide, by decide, by decide⟩
  case formula =>
    by_cases h : isCanonicalByte b = true
    · rw [if_pos h, ← onesIn_eq_log2 h, contribution_of_canonical h]
    · rw [if_neg h, contribution_of_not_canonical h]

/-! ## The reducer on the lanes of a port -/

theorem lanesCanonical_eq (f : Family) (x : Port) :
    lanesCanonical f.len x = (bytesOf f x).all isCanonicalByte := List.all_map.symm

theorem onesInLanes_eq (f : Family) (x : Port) :
    onesInLanes f.len x = ((bytesOf f x).map onesIn).sum := by
  rw [bytesOf, List.map_map]
  rfl

theorem onesInLanes_le_bitlen (f : Family) (x : Port) : onesInLanes f.len x ≤ f.bitlen := by
  rw [onesInLanes_eq, Family.bitlen, ← bytesOf_length f x]
  exact sum_onesIn_le _

/-! ## What a row of the opcode map answers -/

section Row
variable {s : State} {c : Command} {rest : List Command}

/-- `step_of_rsv_ne`, for a word made of its fields. -/
theorem step_of_controlWord_rsv_ne {op : BitVec 3} {fa fb : Family} {rsv : BitVec 3} {p : BitVec 8}
    (hq : s.queue = c :: rest) (hcw : c.cw = controlWord op fa fb rsv p) (hrsv : rsv ≠ 0#3) :
    step s = .next (s.answered rest (Response.failed .illegalOperation)) := by
  refine step_of_rsv_ne hq ?_
  rwa [hcw, rsvField_controlWord]

theorem exec_of_resultOf (hq : s.queue = c :: rest) (i : Instr) {x : Result}
    (hx : resultOf i s.config c = x) : exec i s = .next (s.answered rest x.toResponse) := by
  rw [exec_of_queue hq, hx]
  rfl

/-- What the unit alone answers to a word made of its fields. -/
theorem respond_controlWord (cfg : Config) (op : BitVec 3) (fa fb : Family) (p : BitVec 8)
    (a b : Port) :
    respond cfg { cw := controlWord op fa fb 0#3 p, a := a, b := b } =
      some (resultOf (.ofFields op fa fb p.toNat) cfg
        { cw := controlWord op fa fb 0#3 p, a := a, b := b }).toResponse := by
  simp only [respond_eq, answerTo, decode_controlWord]

end Row

/-! ## `MFP` (R82) -/

theorem mfpResult_of_gt (cfg : Config) {f : Family} {p : Nat} (h : p > f.bitlen) :
    mfpResult cfg f p = .error .prefixOutOfRange := by
  simp only [mfpResult, prefixGuard_above h, raise]

/-- `MFP` has the guard without the strict limit, so `STRICT_V6` makes no difference. -/
theorem mfpResult_of_le (cfg : Config) {f : Family} {p : Nat} (h : p ≤ f.bitlen) :
    mfpResult cfg f p = .maskOut f (maskFromPrefix p f.len) := by
  have hguard : prefixGuard cfg p f false = .ok () := prefixGuard_ok h (by simp)
  simp only [mfpResult, hguard]

/-- The byte of a mask as R81 writes it, reduced modulo 256. -/
theorem maskByte_eq_mod (p i : Nat) :
    maskByte p i =
      if p ≥ (i + 1) * 8 then 0xFF#8
      else if p > i * 8 then BitVec.ofNat 8 ((0xFF <<< ((i + 1) * 8 - p)) % 256)
      else 0x00#8 := by
  have hmod (n : Nat) : BitVec.ofNat 8 (n % 256) = BitVec.ofNat 8 n :=
    BitVec.eq_of_toNat_eq (by simp)
  rw [hmod, maskByte]

/-- Settles O33: the guard decides between the error and the mask, which stands in its lanes. -/
theorem mfpExpandsAPrefixLength : Obligations.MfpExpandsAPrefixLength := by
  refine ⟨decode_controlWord 0b100#3,
    fun s c rest fa fb rsv p => step_of_controlWord_rsv_ne,
    fun s c rest fa fb p hq hp =>
      exec_of_resultOf hq (.mfp fa fb p) (mfpResult_of_gt s.config hp),
    fun s c rest fa fb p hq hp => ?success, fun cfg a b => ?run⟩
  case success =>
    refine ⟨portOf (maskFromPrefix p fa.len),
      exec_of_resultOf hq (.mfp fa fb p) (mfpResult_of_le s.config hp), fun i hi => ?_,
      zeroFrom_portOf (maskFromPrefix_length p fa.len).le⟩
    rw [lane_portOf_maskFromPrefix hp hi, maskByte_eq_mod]
  case run =>
    have hmask : maskFromPrefix 22 4 = [255#8, 255#8, 252#8, 0#8] := by decide
    calc respond cfg { cw := 0x8016#16, a := a, b := b }
        = some (mfpResult cfg .v4 22).toResponse :=
          respond_controlWord cfg 0b100#3 .v4 .v4 22#8 a b
      _ = some (Result.maskOut .v4 [255#8, 255#8, 252#8, 0#8]).toResponse := by
          rw [mfpResult_of_le cfg (by decide), Family.len_v4, hmask]

/-! ## `PFM` (R84) -/

theorem pfmResult_of_canonical {f : Family} {c : Command}
    (h : lanesCanonical f.len c.b = true) :
    pfmResult f c = .prefixLen f (onesInLanes f.len c.b) := by
  have hreduce := prefixFromMask_of_canonical ((lanesCanonical_eq f c.b).symm.trans h)
  simp only [pfmResult, Command.operandB, hreduce, onesInLanes_eq]

theorem pfmResult_of_not_canonical {f : Family} {c : Command}
    (h : lanesCanonical f.len c.b = false) : pfmResult f c = .error .invalidSubnetMask := by
  have hrefuse := prefixFromMask_of_not_canonical ((lanesCanonical_eq f c.b).symm.trans h)
  simp only [pfmResult, Command.operandB, hrefuse, raise]

/-- What the unit alone answers to `PFM` of an IPv4 mask on port `B`. -/
theorem respond_pfm_v4 (cfg : Config) (a b : Port) :
    respond cfg { cw := 0xA000#16, a := a, b := b } =
      some (pfmResult .v4 { cw := 0xA000#16, a := a, b := b }).toResponse :=
  respond_controlWord cfg 0b101#3 .v4 .v4 0#8 a b

/-- Settles O34: the canonical test on the lanes decides between the error and the sum. -/
theorem pfmReducesAMask : Obligations.PfmReducesAMask := by
  refine ⟨decode_controlWord 0b101#3,
    fun s c rest fa fb rsv p => step_of_controlWord_rsv_ne,
    fun s c rest fa fb p hq h =>
      exec_of_resultOf hq (.pfm fa fb p) (pfmResult_of_not_canonical h),
    fun s c rest fa fb p hq h =>
      ⟨exec_of_resultOf hq (.pfm fa fb p) (pfmResult_of_canonical h),
        onesInLanes_le_bitlen fb c.b⟩,
    fun cfg a => ?run, fun cfg a => ?badByte⟩
  case run =>
    have hcanonical : lanesCanonical 4 (portOf [255#8, 255#8, 252#8, 0#8]) = true := by decide
    have hones : onesInLanes 4 (portOf [255#8, 255#8, 252#8, 0#8]) = 22 := by decide
    rw [respond_pfm_v4, pfmResult_of_canonical (by exact hcanonical), Family.len_v4, hones]
    rfl
  case badByte =>
    have hbad : lanesCanonical 4 (portOf [255#8, 255#8, 255#8, 85#8]) = false := by decide
    rw [respond_pfm_v4, pfmResult_of_not_canonical (by exact hbad), Result.toResponse_error]

end Sys2Proof.Machine
end

section
/-! PROOFS. `Compute` and the commands `CMP` and `CMPM` (R90 to R100). A host range is present only when the
last mask byte is at most 0xFC; then the last byte of the network address is not 0xFF and that of the
broadcast address is not 0x00, so neither adjustment of the last lane overflows, and both are read off the
ports lane by lane. -/

namespace Sys2Proof.Machine

/-! ## The last byte under a usable mask (R91, R97) -/

theorem getLastD_eq_getD (bs : List Byte) : bs.getLastD 0#8 = bs.getD (bs.length - 1) 0#8 := by
  rw [List.getLastD_eq_getLast?, List.getLast?_eq_getElem?, List.getD_eq_getElem?_getD]

/-- `usable` as R91 writes it, with the index of the last byte. -/
theorem usable_eq_decide {mask : List Byte} {n : Nat} (h : mask.length = n) :
    usable mask = decide ((mask.getD (n - 1) 0#8).toNat ≤ 0xFC) := by
  rw [usable, getLastD_eq_getD, h]

theorem byte_and_ne_ones {m : Byte} (x : Byte) (h : m.toNat ≤ 0xFC) : x &&& m ≠ 0xFF#8 := by
  intro e
  have hle : (x &&& m).toNat ≤ m.toNat := by
    rw [BitVec.toNat_and]
    exact Nat.and_le_right
  rw [e] at hle
  exact absurd (hle.trans h) (by decide)

theorem byte_or_hostmask_ne_zero {m : Byte} (x : Byte) (h : m.toNat ≤ 0xFC) :
    x ||| (m ^^^ 0xFF#8) ≠ 0x00#8 := by
  intro e
  have hm : m = 0xFF#8 := BitVec.xor_eq_zero_iff.mp (BitVec.or_eq_zero_iff.mp e).2
  rw [hm] at h
  exact absurd h (by decide)

/-- A byte of the network address has no bit where the mask has none. -/
theorem byte_and_hostmask (x m : Byte) : (x &&& m) &&& (m ^^^ 0xFF#8) = 0x00#8 := by
  rw [byte_xor_ones, BitVec.and_assoc, BitVec.and_not_self]
  exact BitVec.and_zero

/-- Where there is a host range, its ends are made from the network and the broadcast address, and the
last byte of neither overflows. -/
theorem hostRange_some {a mask first last : List Byte} {n : Nat} (hn : 0 < n) (ha : a.length = n)
    (hm : mask.length = n) (h : hostRange (networkOf a mask) mask = some (first, last)) :
    first = adjustLast incrementByte (networkOf a mask) ∧
    last = adjustLast decrementByte (broadcastOf (networkOf a mask) mask) ∧
    (networkOf a mask).getD (n - 1) 0#8 ≠ 0xFF#8 ∧
    (broadcastOf (networkOf a mask) mask).getD (n - 1) 0#8 ≠ 0x00#8 := by
  cases hu : usable mask with
  | false => rw [hostRange_of_not_usable hu] at h; cases h
  | true =>
    rw [hostRange_of_usable hu] at h
    rw [usable_eq_decide hm, decide_eq_true_eq] at hu
    cases h
    refine ⟨rfl, rfl, ?network, ?broadcast⟩
    case network =>
      rw [networkOf_getD (by omega) (by omega)]
      exact byte_and_ne_ones _ hu
    case broadcast =>
      rw [broadcastOf_getD (by rw [networkOf_length]; omega) (by omega)]
      exact byte_or_hostmask_ne_zero _ hu

/-! ## The single-byte adjustment as a number (R99) -/

/-- The number changes by as much as its last byte does. -/
theorem bytesValue_adjustLast (g : Byte → Byte) {bs : List Byte} {n : Nat} (hn : 0 < n)
    (h : bs.length = n) :
    bytesValue (adjustLast g bs) + (bs.getD (n - 1) 0#8).toNat =
      bytesValue bs + (g (bs.getD (n - 1) 0#8)).toNat := by
  subst h
  fun_induction adjustLast g bs with
  | case1 => cases hn
  | case2 b => simp [bytesValue_cons, Nat.add_comm]
  | case3 b bs hne ih =>
    obtain ⟨c, cs, rfl⟩ := List.exists_cons_of_ne_nil hne
    have hrest := ih (Nat.succ_pos _)
    have hlast : (b :: c :: cs).getD ((b :: c :: cs).length - 1) 0#8 =
        (c :: cs).getD ((c :: cs).length - 1) 0#8 := rfl
    rw [hlast, bytesValue_cons, bytesValue_cons b, adjustLast_length]
    omega

/-- Unless the last byte is 0xFF, the 8-bit incrementer adds 1 to the whole number. -/
theorem bytesValue_increment {bs : List Byte} {n : Nat} (hn : 0 < n) (h : bs.length = n)
    (hne : bs.getD (n - 1) 0#8 ≠ 0xFF#8) :
    bytesValue (adjustLast incrementByte bs) = bytesValue bs + 1 := by
  have hsum := bytesValue_adjustLast incrementByte hn h
  have hbyte : (incrementByte (bs.getD (n - 1) 0#8)).toNat = (bs.getD (n - 1) 0#8).toNat + 1 := by
    rw [incrementByte_of_ne hne]
    bv_omega
  omega

/-- Unless the last byte is 0x00, the 8-bit decrementer takes 1 from the whole number. -/
theorem bytesValue_decrement {bs : List Byte} {n : Nat} (hn : 0 < n) (h : bs.length = n)
    (hne : bs.getD (n - 1) 0#8 ≠ 0x00#8) :
    bytesValue (adjustLast decrementByte bs) + 1 = bytesValue bs := by
  have hsum := bytesValue_adjustLast decrementByte hn h
  have hbyte : (decrementByte (bs.getD (n - 1) 0#8)).toNat + 1 = (bs.getD (n - 1) 0#8).toNat := by
    rw [decrementByte_of_ne hne]
    bv_omega
  omega

/-- Settles O43: neither last byte overflows, so adjusting it adjusts the whole number. -/
theorem singleByteEqualsFullWidth : Obligations.SingleByteEqualsFullWidth := by
  intro f a p first last ha _ h
  obtain ⟨hfirst, hlast⟩ := compute_range_lengths ha h
  obtain ⟨rfl, rfl, hnet, hbroadcast⟩ :=
    hostRange_some f.len_pos ha (maskFromPrefix_length p f.len) h
  exact ⟨hfirst, hlast,
    bytesValue_increment f.len_pos ((adjustLast_length _ _).symm.trans hfirst) hnet,
    bytesValue_decrement f.len_pos ((adjustLast_length _ _).symm.trans hlast) hbroadcast⟩

/-! ## The subnet information on the ports (R90 to R95) -/

section Ports
variable {f : Family} {i : Nat}

theorem lane_portOf_networkOf (a : Port) {p : Nat} (hp : p ≤ f.bitlen) (hi : i < f.len) :
    lane (portOf (networkOf (bytesOf f a) (maskFromPrefix p f.len))) i =
      lane a i &&& maskByte p i := by
  rw [lane_portOf_of_length (by simp) hi, networkOf_getD (by simpa) (by simpa),
    bytesOf_getD f a i hi, maskFromPrefix_getD hp hi]

theorem lane_portOf_broadcastOf {network mask : List Byte} (hn : network.length = f.len)
    (hm : mask.length = f.len) (hi : i < f.len) :
    lane (portOf (broadcastOf network mask)) i =
      lane (portOf network) i ||| (lane (portOf mask) i ^^^ 0xFF#8) := by
  rw [lane_portOf_of_length (by simp [hn, hm]) hi, broadcastOf_getD (by omega) (by omega),
    lane_portOf_of_length hn hi, lane_portOf_of_length hm hi]

/-- Below the last lane of the family nothing is adjusted. -/
theorem lane_portOf_adjustLast_of_lt (g : Byte → Byte) {bs : List Byte} (h : bs.length = f.len)
    (hi : i < f.len - 1) : lane (portOf (adjustLast g bs)) i = lane (portOf bs) i := by
  have hif : i < f.len := by omega
  rw [lane_portOf_of_length ((adjustLast_length g bs).trans h) hif,
    adjustLast_getD g bs i (by omega), if_neg (by omega), lane_portOf_of_length h hif]

theorem lane_portOf_adjustLast_last (g : Byte → Byte) {bs : List Byte} (h : bs.length = f.len) :
    lane (portOf (adjustLast g bs)) (f.len - 1) = g (lane (portOf bs) (f.len - 1)) := by
  have hpos := f.len_pos
  have hif : f.len - 1 < f.len := by omega
  rw [lane_portOf_of_length ((adjustLast_length g bs).trans h) hif,
    adjustLast_getD g bs _ (by omega), if_pos (by omega), lane_portOf_of_length h hif]

theorem lane_portOf_increment {bs : List Byte} (h : bs.length = f.len)
    (hne : bs.getD (f.len - 1) 0#8 ≠ 0xFF#8) :
    lane (portOf (adjustLast incrementByte bs)) (f.len - 1) =
      lane (portOf bs) (f.len - 1) + 1#8 := by
  rw [← lane_portOf_of_length h (Nat.sub_one_lt f.len_pos.ne')] at hne
  rw [lane_portOf_adjustLast_last _ h, incrementByte_of_ne hne]

theorem lane_portOf_decrement {bs : List Byte} (h : bs.length = f.len)
    (hne : bs.getD (f.len - 1) 0#8 ≠ 0x00#8) :
    lane (portOf (adjustLast decrementByte bs)) (f.len - 1) =
      lane (portOf bs) (f.len - 1) - 1#8 := by
  rw [← lane_portOf_of_length h (Nat.sub_one_lt f.len_pos.ne')] at hne
  rw [lane_portOf_adjustLast_last _ h, decrementByte_of_ne hne]

end Ports

theorem hostRange_isSome (network mask : List Byte) :
    (hostRange network mask).isSome = usable mask := by
  cases hu : usable mask with
  | false => rw [hostRange_of_not_usable hu]; rfl
  | true => rw [hostRange_of_usable hu]; rfl

/-- With a host range `HR` is 1, and `FIRST` and `LAST` are its ends (R30). -/
theorem info_toResponse_present {x : SubnetInfo} (h : (Result.info x).toResponse.hr = true) :
    ∃ first last, x.range = some (first, last) ∧
      (Result.info x).toResponse.first = portOf first ∧
      (Result.info x).toResponse.last = portOf last := by
  obtain ⟨⟨first, last⟩, hrange⟩ := Option.isSome_iff_exists.mp h
  exact ⟨first, last, hrange, by simp [Result.toResponse, hrange, portOfOption],
    by simp [Result.toResponse, hrange, portOfOption]⟩

/-- Every bit length fits the field `PLEN`. -/
theorem bitlen_lt (f : Family) : f.bitlen < 256 := by
  cases f <;> decide

/-- The response to the address on port `a` and a prefix length within the bit length (R90 to R95). -/
theorem carriesSubnet_compute (a : Port) {f : Family} {p : Nat} (hp : p ≤ f.bitlen) :
    CarriesSubnet (Result.info (compute (bytesOf f a) f p)).toResponse f a p := by
  have hlast : f.len - 1 < f.len := Nat.sub_one_lt f.len_pos.ne'
  have hnet : (networkOf (bytesOf f a) (maskFromPrefix p f.len)).length = f.len := by simp
  have hmask := maskFromPrefix_length p f.len
  have hbroadcast : (broadcastOf (networkOf (bytesOf f a) (maskFromPrefix p f.len))
      (maskFromPrefix p f.len)).length = f.len := by simp
  obtain ⟨zaddr, znet, zmask, zfirst, zlast⟩ :=
    zeroFrom_info_toResponse (p := p) (bytesOf_length f a) rfl
  refine ⟨rfl, rfl, ?plen, rfl, ⟨fun i hi => lane_portOf_bytesOf a hi, zaddr⟩,
    ⟨fun i hi => lane_portOf_maskFromPrefix hp hi, zmask⟩,
    ⟨fun i hi => lane_portOf_networkOf a hp hi, znet⟩, ?hr, fun hr => ?first, fun hr => ?last,
    info_toResponse_absent⟩
  case plen =>
    exact Nat.mod_eq_of_lt (hp.trans_lt (bitlen_lt f))
  case hr =>
    rw [← maskFromPrefix_getD hp hlast, ← usable_eq_decide hmask]
    exact hostRange_isSome _ _
  case first =>
    obtain ⟨first, last, hrange, efirst, -⟩ := info_toResponse_present hr
    obtain ⟨rfl, -, hne, -⟩ := hostRange_some f.len_pos (bytesOf_length f a) hmask hrange
    rw [efirst]
    exact ⟨fun i hi => lane_portOf_adjustLast_of_lt _ hnet hi, lane_portOf_increment hnet hne,
      efirst ▸ zfirst⟩
  case last =>
    obtain ⟨first, last, hrange, -, elast⟩ := info_toResponse_present hr
    obtain ⟨-, rfl, -, hne⟩ := hostRange_some f.len_pos (bytesOf_length f a) hmask hrange
    rw [elast]
    refine ⟨fun i hi => ?_, ?_, elast ▸ zlast⟩
    · rw [lane_portOf_adjustLast_of_lt _ hbroadcast hi,
        lane_portOf_broadcastOf hnet hmask (by omega)]
      rfl
    · rw [lane_portOf_decrement hbroadcast hne, lane_portOf_broadcastOf hnet hmask hlast]
      rfl

/-! ## `CMP` (R95) -/

/-- The prefix lengths `CMP` and `CMPM` refuse: above the bit length, and with `STRICT_V6` a `V6` length
above 126. -/
theorem guardedCompute_of_outside {cfg : Config} (a : List Byte) {f : Family} {p : Nat}
    (h : p > f.bitlen ∨ (cfg.strictV6 = true ∧ f = .v6 ∧ p > 126)) :
    guardedCompute cfg a f p = .error .prefixOutOfRange :=
  guardedCompute_error (h.elim prefixGuard_above fun hs => prefixGuard_strict ⟨rfl, hs⟩)

theorem guardedCompute_of_inside {cfg : Config} (a : List Byte) {f : Family} {p : Nat}
    (hp : p ≤ f.bitlen) (hs : ¬ (cfg.strictV6 = true ∧ f = .v6 ∧ p > 126)) :
    guardedCompute cfg a f p = .info (compute a f p) :=
  guardedCompute_ok (prefixGuard_ok hp fun h => hs h.2)

/-- What the unit alone answers to the word of `CMP` of an IPv4 address and the prefix length 22. -/
theorem respond_cmp_v4_22 (cfg : Config) (a b : Port) :
    respond cfg { cw := 0xC016#16, a := a, b := b } =
      some (guardedCompute cfg (bytesOf .v4 a) .v4 22).toResponse :=
  respond_controlWord cfg 0b110#3 .v4 .v4 22#8 a b

/-- Settles O35: the guard decides between the error and the subnet information. -/
theorem cmpComputesSubnetInfo : Obligations.CmpComputesSubnetInfo := by
  refine ⟨decode_controlWord 0b110#3,
    fun s c rest fa fb rsv p => step_of_controlWord_rsv_ne,
    fun s c rest fa fb p hq h =>
      exec_of_resultOf hq (.cmp fa fb p) (guardedCompute_of_outside _ h),
    fun s c rest fa fb p hq hp hs =>
      ⟨_, exec_of_resultOf hq (.cmp fa fb p) (guardedCompute_of_inside _ hp hs),
        carriesSubnet_compute c.a hp⟩,
    fun cfg b => ?run⟩
  case run =>
    have hinfo : compute (bytesOf .v4 (portOf [10#8, 152#8, 17#8, 240#8])) .v4 22 =
        { family := .v4, address := [10#8, 152#8, 17#8, 240#8],
          network := [10#8, 152#8, 16#8, 0#8], mask := [255#8, 255#8, 252#8, 0#8],
          prefixLength := 22,
          range := some ([10#8, 152#8, 16#8, 1#8], [10#8, 152#8, 19#8, 254#8]) } := by decide
    rw [respond_cmp_v4_22, guardedCompute_of_inside _ (by decide) (by simp), hinfo]
    rfl

/-! ## `CMPM` (R96) -/

theorem cmpmResult_of_ne (cfg : Config) {fa fb : Family} (h : fa ≠ fb) (c : Command) :
    cmpmResult cfg fa fb c = .error .lengthMismatch := if_pos h

theorem cmpmResult_of_not_canonical (cfg : Config) {f : Family} {c : Command}
    (h : lanesCanonical f.len c.b = false) : cmpmResult cfg f f c = .error .invalidSubnetMask := by
  have hrefuse := prefixFromMask_of_not_canonical ((lanesCanonical_eq f c.b).symm.trans h)
  simp [cmpmResult, Command.operandB, hrefuse, raise]

/-- On a canonical mask `CMPM` goes on as `CMP` does, with the number of 1-bits for `P`. -/
theorem cmpmResult_of_canonical (cfg : Config) {f : Family} {c : Command}
    (h : lanesCanonical f.len c.b = true) :
    cmpmResult cfg f f c = guardedCompute cfg (bytesOf f c.a) f (onesInLanes f.len c.b) := by
  have hreduce := prefixFromMask_of_canonical ((lanesCanonical_eq f c.b).symm.trans h)
  simp [cmpmResult, Command.operandA, Command.operandB, hreduce, onesInLanes_eq]

/-- What the unit alone answers to `CMPM` of an IPv4 address and an IPv4 mask. -/
theorem respond_cmpm_v4 (cfg : Config) (a b : Port) :
    respond cfg { cw := 0xE000#16, a := a, b := b } =
      some (cmpmResult cfg .v4 .v4 { cw := 0xE000#16, a := a, b := b }).toResponse :=
  respond_controlWord cfg 0b111#3 .v4 .v4 0#8 a b

/-- Settles O36: each test in its order, and then `CMP` with the derived prefix length. -/
theorem cmpmComputesFromAMask : Obligations.CmpmComputesFromAMask := by
  refine ⟨decode_controlWord 0b111#3,
    fun s c rest fa fb rsv p => step_of_controlWord_rsv_ne,
    fun s c rest fa fb q hq hne =>
      exec_of_resultOf hq (.cmpm fa fb q) (cmpmResult_of_ne s.config hne c),
    fun s c rest f q hq h =>
      exec_of_resultOf hq (.cmpm f f q) (cmpmResult_of_not_canonical s.config h),
    fun s c rest f q hq h hstrict hf hp =>
      exec_of_resultOf hq (.cmpm f f q) ((cmpmResult_of_canonical s.config h).trans
        (guardedCompute_of_outside _ (.inr ⟨hstrict, hf, hp⟩))),
    fun s c rest f q hq h hs =>
      have hp := onesInLanes_le_bitlen f c.b
      ⟨_, exec_of_resultOf hq (.cmpm f f q) ((cmpmResult_of_canonical s.config h).trans
          (guardedCompute_of_inside _ hp hs)),
        carriesSubnet_compute c.a hp⟩,
    fun cfg => ?run⟩
  case run =>
    have hcanonical : lanesCanonical 4 (portOf [255#8, 255#8, 252#8, 0#8]) = true := by decide
    have hones : onesInLanes 4 (portOf [255#8, 255#8, 252#8, 0#8]) = 22 := by decide
    rw [respond_cmpm_v4, respond_cmp_v4_22, cmpmResult_of_canonical cfg (by exact hcanonical),
      Family.len_v4, hones]

/-! ## The network address and its host bits (R98, R100) -/

/-- What the unit alone answers to `CMP`. -/
theorem respond_cmp (cfg : Config) (f fb : Family) {p : Nat} (hp : p < 256) (a b : Port) :
    respond cfg { cw := encode (.cmp f fb p), a := a, b := b } =
      some (guardedCompute cfg (bytesOf f a) f p).toResponse := by
  have hfield : (BitVec.ofNat 8 p).toNat = p := Nat.mod_eq_of_lt hp
  have h := respond_controlWord cfg 0b110#3 f fb (BitVec.ofNat 8 p) a b
  rw [hfield] at h
  exact h

/-- A successful `CMP` has the subnet information of `A` as its answer, and its prefix length is within
the bit length. -/
theorem respond_cmp_success {cfg : Config} {f fb : Family} {p : Nat} {a b : Port} {r : Response}
    (hp : p < 256) (h : respond cfg { cw := encode (.cmp f fb p), a := a, b := b } = some r)
    (hst : r.st = .ok) :
    p ≤ f.bitlen ∧ r = (Result.info (compute (bytesOf f a) f p)).toResponse := by
  cases (respond_cmp cfg f fb hp a b).symm.trans h
  rcases prefixGuard_cases cfg p f true with ⟨hg, hle, -⟩ | ⟨hg, -⟩
  · rw [guardedCompute_ok hg]
    exact ⟨hle, rfl⟩
  · rw [guardedCompute_error hg] at hst
    cases hst

/-- Settles O45: in a lane, `NET` is a byte under the mask, so the mask changes nothing in it and its
complement leaves nothing of it. -/
theorem networkAddressIsMasked : Obligations.NetworkAddressIsMasked := by
  intro cfg f fb p a b r hp h hst
  obtain ⟨hle, rfl⟩ := respond_cmp_success hp h hst
  have hr := carriesSubnet_compute a hle
  obtain ⟨hnet, hzero⟩ := hr.net
  obtain ⟨hmask, -⟩ := hr.mask
  refine ⟨(band_isByteOpRow.answersY_iff cfg ..).mpr
      (lanewise_eq_of_lanes (fun i hi => ?masked) hzero),
    fun m hm => (band_isByteOpRow.answersY_iff cfg ..).mpr (lanewise_eq_zero fun i hi => ?host)⟩
  case masked => rw [hnet i hi, hmask i hi, BitVec.and_assoc, BitVec.and_self]
  case host => rw [hnet i hi, hm i hi, hmask i hi, byte_and_hostmask]

/-- A byte sequence of a family's length is read off its port again. -/
theorem bytesOf_portOf {f : Family} {bs : List Byte} (h : bs.length = f.len) :
    bytesOf f (portOf bs) = bs := by
  refine (bytes_eq_iff_getD ((bytesOf_length f _).trans h.symm)).mpr fun i hi => ?_
  rw [bytesOf_length] at hi
  rw [bytesOf_getD f _ i hi, lane_portOf_of_length h hi]

theorem portOf_inj {f : Family} {xs ys : List Byte} (hx : xs.length = f.len)
    (hy : ys.length = f.len) (h : portOf xs = portOf ys) : xs = ys := by
  rw [← bytesOf_portOf hx, ← bytesOf_portOf hy, h]

/-- Only the bits of an address under the mask reach its network address (R90). -/
theorem networkOf_congr {f : Family} {p : Nat} {a a' : Port} (hp : p ≤ f.bitlen)
    (h : ∀ i, i < f.len → lane a i &&& maskByte p i = lane a' i &&& maskByte p i) :
    networkOf (bytesOf f a) (maskFromPrefix p f.len) =
      networkOf (bytesOf f a') (maskFromPrefix p f.len) := by
  refine (bytes_eq_iff_getD (by simp)).mpr fun i hi => ?_
  have hf : i < f.len := by simpa using hi
  rw [networkOf_getD (by simpa) (by simpa), networkOf_getD (by simpa) (by simpa),
    bytesOf_getD f a i hf, bytesOf_getD f a' i hf, maskFromPrefix_getD hp hf, h i hf]

/-- With its address the subnet information of one family and prefix length changes only in `ADDR`, where
the network address stays the same. -/
theorem info_toResponse_congr {f : Family} {p : Nat} {a a' : List Byte}
    (h : networkOf a (maskFromPrefix p f.len) = networkOf a' (maskFromPrefix p f.len)) :
    { (Result.info (compute a f p)).toResponse with addr := 0 } =
      { (Result.info (compute a' f p)).toResponse with addr := 0 } := by
  simp only [Result.toResponse, compute_family, compute_network, compute_mask,
    compute_prefixLength, compute_range, h]

/-- The host range on the ports is a function of the network address and the mask (R100). -/
theorem info_toResponse_range_congr {x y : SubnetInfo} (h : x.range = y.range) :
    (Result.info x).toResponse.hr = (Result.info y).toResponse.hr ∧
      (Result.info x).toResponse.first = (Result.info y).toResponse.first ∧
      (Result.info x).toResponse.last = (Result.info y).toResponse.last := by
  simp only [Result.toResponse, h, and_self]

/-- Settles O46: the host range is `hostRange` of the network address and the mask, and the ports `NET` and
`MASK` determine both. -/
theorem rangeIgnoresHostBits : Obligations.RangeIgnoresHostBits := by
  refine ⟨fun cfg f fb fb' p a a' b b' r r' hp hsame h h' => ?hostBits,
    fun cfg cfg' f fb fb' p p' a a' b b' r r' hp hp' h h' hst hst' hnet hmask => ?range⟩
  case hostBits =>
    cases (respond_cmp cfg f fb (hp.trans_lt (bitlen_lt f)) a b).symm.trans h
    cases (respond_cmp cfg f fb' (hp.trans_lt (bitlen_lt f)) a' b').symm.trans h'
    rcases prefixGuard_cases cfg p f true with ⟨hg, -⟩ | ⟨hg, -⟩
    · rw [guardedCompute_ok hg, guardedCompute_ok hg]
      exact info_toResponse_congr (networkOf_congr hp hsame)
    · rw [guardedCompute_error hg, guardedCompute_error hg]
  case range =>
    obtain ⟨-, rfl⟩ := respond_cmp_success hp h hst
    obtain ⟨-, rfl⟩ := respond_cmp_success hp' h' hst'
    have enet : networkOf (bytesOf f a) (maskFromPrefix p f.len) =
        networkOf (bytesOf f a') (maskFromPrefix p' f.len) :=
      portOf_inj (f := f) (by simp) (by simp) hnet
    have emask : maskFromPrefix p f.len = maskFromPrefix p' f.len :=
      portOf_inj (f := f) (by simp) (by simp) hmask
    exact info_toResponse_range_congr (congrArg₂ hostRange enet emask)

end Sys2Proof.Machine
end

section
/-! PROOFS. The error response (R113). Its status word is the code of the error kind above thirteen zero
bits. -/

namespace Sys2Proof.Machine

/-- With `FR`, `HR` and `PLEN` zero, the code is all the status word holds (R51, R113). -/
theorem Response.failed_sw (k : ErrorKind) : (Response.failed k).sw = k.code ++ 0#13 := by
  cases k <;> rfl

/-- Settles O49: an error status comes from an error result alone, and that result's response is zero
but for `ST`. -/
theorem errorResponseIsAllZero : Obligations.ErrorResponseIsAllZero := by
  intro cfg c r k h hst
  cases (respond_eq cfg c).symm.trans h
  rw [Result.toResponse_eq_failed hst, Response.failed_sw]
  exact ⟨rfl, BitVec.extractLsb'_append_eq_left, BitVec.extractLsb'_append_eq_right⟩

end Sys2Proof.Machine
end

section
/-! PROOFS. The encoder and the decoder as inverses, commands as written, and the canonical form (R50 to R58).
An instruction is the row its opcode selects with its three fields, and a control word is made of the fields
read from it; so both round trips follow from decoding a word made of its fields. -/

namespace Sys2Proof

/-! ## An instruction from its fields -/

/-- No part of an instruction lies outside its opcode and its three fields. -/
theorem Instr.ofFields_of_instr (i : Instr) : Instr.ofFields i.opcode i.faTag i.fbTag i.pField = i := by
  cases i <;> simp [Instr.opcode, Instr.faTag, Instr.fbTag, Instr.pField]

section OfFields
variable (op : BitVec 3) (fa fb : Family) (p : Nat)

@[simp] theorem Instr.faTag_ofFields : (Instr.ofFields op fa fb p).faTag = fa := by
  rcases opcode_cases op with rfl | rfl | rfl | rfl | rfl | rfl | rfl | rfl <;> rfl

@[simp] theorem Instr.fbTag_ofFields : (Instr.ofFields op fa fb p).fbTag = fb := by
  rcases opcode_cases op with rfl | rfl | rfl | rfl | rfl | rfl | rfl | rfl <;> rfl

@[simp] theorem Instr.pField_ofFields : (Instr.ofFields op fa fb p).pField = p := by
  rcases opcode_cases op with rfl | rfl | rfl | rfl | rfl | rfl | rfl | rfl <;> rfl

end OfFields

theorem Instr.wellFormed_iff (i : Instr) : i.wellFormed = true ↔ i.pField < 256 := decide_eq_true_iff

theorem pField_lt (cw : ControlWord) : pField cw < 256 := (cw.extractLsb' 0 8).isLt

/-- All that decoding to an instruction says of the word. -/
theorem decode_eq_ok_iff (cw : ControlWord) (i : Instr) :
    decode cw = .ok i ↔
      rsvField cw = 0#3 ∧ Instr.ofFields (opField cw) (faField cw) (fbField cw) (pField cw) = i := by
  by_cases h : rsvField cw = 0#3
  · rw [decode_of_rsv_zero h, Except.ok.injEq, and_iff_right h]
  · simp [decode_of_rsv_ne h, h]

end Sys2Proof

namespace Sys2Proof.Machine

/-! ## The two round trips (R50, R53, R54) -/

/-- Settles O3: the word of an instruction is made of its fields, a well-formed `P` fits its eight bits, and
decoding a word made of its fields gives the row they select. -/
theorem decodeOfEncode : Obligations.DecodeOfEncode := by
  intro i hwf
  have hp : (BitVec.ofNat 8 i.pField).toNat = i.pField := Nat.mod_eq_of_lt (i.wellFormed_iff.mp hwf)
  rw [encode_eq_controlWord, decode_controlWord, hp, i.ofFields_of_instr]

/-- Settles O4: a word that decodes has `RSV` zero, and it is made of the four fields that are left. -/
theorem encodeOfDecode : Obligations.EncodeOfDecode := by
  intro cw i h
  obtain ⟨hrsv, rfl⟩ := (decode_eq_ok_iff cw i).mp h
  have hp : BitVec.ofNat 8 (pField cw) = cw.extractLsb' 0 8 := by
    rw [pField, BitVec.ofNat_toNat, BitVec.setWidth_eq]
  refine ⟨?_, by simpa [Instr.wellFormed_iff] using pField_lt cw⟩
  rw [encode_ofFields, hp, ← hrsv, controlWord_of_fields]

/-! ## Operands and commands as written (R27, R30, R55, R58) -/

/-- Settles O11: a lane of a port made of bytes is the byte of that index. -/
theorem operandRoundTrip : Obligations.OperandRoundTrip :=
  ⟨fun f x => ⟨fun _ hi => lane_portOf_bytesOf x hi, zeroFrom_portOf (bytesOf_length f x).le⟩,
    fun _ _ h => bytesOf_portOf h⟩

section Written
variable {f g : Family} {a b : List Byte} {p : Nat}

theorem writeBand_eq (ha : a.length = f.len) (hb : b.length = g.len) :
    writeBand a b = some (assemble (.band f g 0) a b) := by
  rw [writeBand, familyOf_of_length ha, familyOf_of_length hb]; rfl

theorem writeBor_eq (ha : a.length = f.len) (hb : b.length = g.len) :
    writeBor a b = some (assemble (.bor f g 0) a b) := by
  rw [writeBor, familyOf_of_length ha, familyOf_of_length hb]; rfl

theorem writeBxor_eq (ha : a.length = f.len) (hb : b.length = g.len) :
    writeBxor a b = some (assemble (.bxor f g 0) a b) := by
  rw [writeBxor, familyOf_of_length ha, familyOf_of_length hb]; rfl

theorem writeMfp_eq (f : Family) (hp : p < 256) :
    writeMfp f p = some (assemble (.mfp f .v4 p) [] []) := if_pos hp

theorem writePfm_eq (hb : b.length = g.len) :
    writePfm b = some (assemble (.pfm .v4 g 0) [] b) := by
  rw [writePfm, familyOf_of_length hb]; rfl

theorem writeCmp_eq (ha : a.length = f.len) (hp : p < 256) :
    writeCmp a p = some (assemble (.cmp f .v4 p) a []) := by
  rw [writeCmp, familyOf_of_length ha]
  exact if_pos hp

theorem writeCmpm_eq (ha : a.length = f.len) (hb : b.length = g.len) :
    writeCmpm a b = some (assemble (.cmpm f g 0) a b) := by
  rw [writeCmpm, familyOf_of_length ha, familyOf_of_length hb]; rfl

theorem decode_assemble {i : Instr} (hwf : i.wellFormed = true) (a b : List Byte) :
    decode (assemble i a b).cw = .ok i := decodeOfEncode i hwf

/-- A written operand `A` is read back, and every lane beyond it is zero. -/
theorem assemble_operandA (i : Instr) (ha : a.length = f.len) (b : List Byte) :
    (assemble i a b).operandA f = a ∧ zeroFrom f.len (assemble i a b).a :=
  ⟨bytesOf_portOf ha, zeroFrom_portOf ha.le⟩

/-- A written operand `B` is read back, and every lane beyond it is zero. -/
theorem assemble_operandB (i : Instr) (a : List Byte) (hb : b.length = g.len) :
    (assemble i a b).operandB g = b ∧ zeroFrom g.len (assemble i a b).b :=
  ⟨bytesOf_portOf hb, zeroFrom_portOf hb.le⟩

/-- A written command with two operands, whatever its row. -/
theorem assemble_two_operands {i : Instr} (hwf : i.wellFormed = true) (ha : a.length = f.len)
    (hb : b.length = g.len) :
    decode (assemble i a b).cw = .ok i ∧
      (assemble i a b).operandA f = a ∧ zeroFrom f.len (assemble i a b).a ∧
      (assemble i a b).operandB g = b ∧ zeroFrom g.len (assemble i a b).b := by
  obtain ⟨hA, hzA⟩ := assemble_operandA i ha b
  obtain ⟨hB, hzB⟩ := assemble_operandB i a hb
  exact ⟨decode_assemble hwf a b, hA, hzA, hB, hzB⟩

end Written

/-- Settles O14: every written command is `assemble` of its canonical instruction, and a port without an
operand is filled with no byte. -/
theorem writtenCommandsAreCanonical : Obligations.WrittenCommandsAreCanonical := by
  intro f g a b p ha hb hp
  refine ⟨⟨_, writeBand_eq ha hb, assemble_two_operands rfl ha hb⟩,
    ⟨_, writeBor_eq ha hb, assemble_two_operands rfl ha hb⟩,
    ⟨_, writeBxor_eq ha hb, assemble_two_operands rfl ha hb⟩,
    ⟨_, writeMfp_eq f hp, decode_assemble ?_ [] [], rfl, rfl⟩,
    ⟨_, writePfm_eq hb, decode_assemble rfl [] b, rfl, assemble_operandB _ [] hb⟩,
    ⟨_, writeCmp_eq ha hp, decode_assemble ?_ a [], ?_⟩,
    ⟨_, writeCmpm_eq ha hb, assemble_two_operands rfl ha hb⟩⟩
  · exact (Instr.wellFormed_iff _).mpr hp
  · exact (Instr.wellFormed_iff _).mpr hp
  · obtain ⟨hA, hzA⟩ := assemble_operandA (.cmp f .v4 p) ha []
    exact ⟨hA, hzA, rfl⟩

/-! ## The tables of examples (R59, R60) -/

/-- Settles O1, row by row of the table of R59. -/
theorem controlWordsOfTheTable : Obligations.ControlWordsOfTheTable := by
  unfold Obligations.ControlWordsOfTheTable
  decide

/-- The status word of a success, from the three other fields it holds (R51). -/
theorem sw_of_success {r : Response} (fr : Family) (hr : Bool) (plen : BitVec 8) (hst : r.st = .ok)
    (hfr : r.fr = fr) (hhr : r.hr = hr) (hplen : r.plen = plen) :
    r.sw = controlWord 0#3 fr (.ofTag hr) 0#3 plen := by
  rw [sw_eq_controlWord, hst, hfr, hhr, hplen]
  rfl

/-- Settles O2: a status word is made of `ST`, `FR`, `HR` and `PLEN` alone, which each row of the table of
R60 fixes whatever the bytes are. -/
theorem statusWordsOfTheTable : Obligations.StatusWordsOfTheTable :=
  ⟨fun _ => (sw_of_success .v4 false 0#8 rfl rfl rfl rfl).trans (by decide),
    fun _ => (sw_of_success .v4 false 0#8 rfl rfl rfl rfl).trans (by decide),
    fun _ => (sw_of_success .v6 false 0#8 rfl rfl rfl rfl).trans (by decide),
    fun _ => (sw_of_success .v6 false 0#8 rfl rfl rfl rfl).trans (by decide),
    (sw_of_success .v4 false 22#8 rfl rfl rfl rfl).trans (by decide),
    fun _ _ _ _ => (sw_of_success .v4 true 22#8 rfl rfl rfl rfl).trans (by decide),
    fun _ _ _ => (sw_of_success .v4 false 31#8 rfl rfl rfl rfl).trans (by decide),
    fun _ _ _ _ => (sw_of_success .v6 true 64#8 rfl rfl rfl rfl).trans (by decide),
    fun _ _ _ => (sw_of_success .v6 false 128#8 rfl rfl rfl rfl).trans (by decide),
    by decide, by decide, by decide, by decide⟩

/-! ## The canonical form (R28, R55) -/

theorem canonical_pField_le (i : Instr) : i.canonical.pField ≤ i.pField := by
  cases i with
  | mfp | cmp => exact le_rfl
  | band | bor | bxor | reserved3 | pfm | cmpm => exact Nat.zero_le _

theorem canonical_wellFormed {i : Instr} (h : i.wellFormed = true) : i.canonical.wellFormed = true := by
  rw [Instr.wellFormed_iff] at h ⊢
  exact (canonical_pField_le i).trans_lt h

@[simp] theorem canonical_canonical (i : Instr) : i.canonical.canonical = i.canonical := by
  cases i <;> rfl

/-- Row by row of the table of R28: a field that the command does not read is zero. -/
theorem canonical_ignored_fields (i : Instr) :
    ((readSet i.opcode).fa = false → i.canonical.faTag = .v4) ∧
    ((readSet i.opcode).fb = false → i.canonical.fbTag = .v4) ∧
    ((readSet i.opcode).p = false → i.canonical.pField = 0) := by
  cases i <;> simp [readSet, Instr.opcode, Instr.canonical, Instr.faTag, Instr.fbTag, Instr.pField]

/-- No command's result depends on a field that the canonical form sets to zero. -/
theorem resultOf_canonical (i : Instr) : resultOf i.canonical = resultOf i := by
  cases i <;> rfl

theorem exec_canonical (i : Instr) (s : State) : exec i.canonical s = exec i s := by
  rw [exec_eq_transact, exec_eq_transact, resultOf_canonical]

/-- Settles O7, by the table of R28 and what each command's result depends on. -/
theorem canonicalFormMeansTheSame : Obligations.CanonicalFormMeansTheSame := by
  intro i hwf
  have hcanonical := canonical_wellFormed hwf
  obtain ⟨hfa, hfb, hp⟩ := canonical_ignored_fields i
  exact ⟨hcanonical, canonical_canonical i, decodeOfEncode _ hcanonical, hfa, hfb, hp, exec_canonical i⟩

/-! ## The status codes (R111) -/

/-- Every status the unit can report. -/
def Status.all : List Status :=
  [.ok, .error .prefixOutOfRange, .error .invalidSubnetMask, .error .lengthMismatch,
   .error .illegalOperation]

theorem Status.mem_all (a : Status) : a ∈ Status.all := by
  cases a with
  | ok => decide
  | error k => cases k <;> decide

theorem Status.code_injOn_all : ∀ a ∈ Status.all, ∀ b ∈ Status.all, a.code = b.code → a = b := by
  decide

theorem Status.code_ne_host_codes :
    ∀ a ∈ Status.all, a.code ≠ 1#3 ∧ a.code ≠ 2#3 ∧ a.code ≠ 7#3 := by
  decide

/-- Settles O9, over the five statuses. -/
theorem statusCodesAreDistinct : Obligations.StatusCodesAreDistinct :=
  ⟨rfl, rfl, rfl, rfl, rfl, rfl, rfl,
    fun a b => Status.code_injOn_all a a.mem_all b b.mem_all,
    fun a => Status.code_ne_host_codes a a.mem_all⟩

end Sys2Proof.Machine
end

section
/-! PROOFS. One transaction: which instruction a step runs, what a step or an instruction takes and delivers,
and what it leaves unchanged (R8, R32 to R34, R41, R54). -/

namespace Sys2Proof.Machine

/-! ## Which instruction a step runs (R54) -/

/-- A step adds nothing around the instruction its command's control word decodes to. -/
theorem step_eq_exec_of_decode {s : State} {c : Command} {rest : List Command} {i : Instr}
    (hq : s.queue = c :: rest) (h : decode c.cw = .ok i) : step s = exec i s := by
  have hans : answerTo s.config c = resultOf i s.config c := by simp only [answerTo, h]
  rw [step_of_queue hq, exec_of_queue hq, hans]

/-- Settles O15. -/
theorem stepRunsTheDecodedInstruction : Obligations.StepRunsTheDecodedInstruction :=
  fun _ _ _ _ => step_eq_exec_of_decode

theorem decodeTableWord_eq_some_iff (nbits w : Nat) (i : Instr) :
    decodeTableWord nbits w = some i ↔ decode (BitVec.ofNat 16 (w % 2 ^ nbits)) = .ok i := by
  unfold decodeTableWord
  split <;> simp [*]

/-- The fetch word is the control word of the first command; the commands after it stay (R9). -/
theorem withFetchWord_queue (s : State) (nbits w : Nat) :
    ∃ a b, (s.withFetchWord nbits w).queue =
      { cw := BitVec.ofNat 16 (w % 2 ^ nbits), a := a, b := b } :: s.queue.tail := by
  unfold State.withFetchWord
  split
  · rename_i hq
    exact ⟨0, 0, by rw [hq]; rfl⟩
  · rename_i c rest hq
    exact ⟨c.a, c.b, by rw [hq]; rfl⟩

/-- Settles O16: the fetch word stands in the first command of the queue, so a step decodes it. -/
theorem fetchWordRunsNext : Obligations.FetchWordRunsNext := by
  intro s nbits w i h
  obtain ⟨a, b, hq⟩ := withFetchWord_queue s nbits w
  exact ⟨step_eq_exec_of_decode hq ((decodeTableWord_eq_some_iff nbits w i).mp h),
    _, step_of_queue hq, State.withFetchWord_config s nbits w, rfl⟩

/-- Settles O18: `RSV` decides between the refusal of the word and the row that `OP` selects. -/
theorem everyControlWordIsAnswered : Obligations.EveryControlWordIsAnswered := by
  intro s c rest hq
  refine ⟨fun hrsv => ⟨decode_of_rsv_ne hrsv, step_of_rsv_ne hq hrsv⟩, fun hrsv => ?_⟩
  have hdecode := decode_of_rsv_zero hrsv
  refine ⟨_, _, hdecode, Instr.opcode_ofFields .., Instr.faTag_ofFields .., Instr.fbTag_ofFields ..,
    Instr.pField_ofFields .., step_eq_exec_of_decode hq hdecode, step_of_queue hq, fun hop => ?_⟩
  rw [answerTo_of_illegal s.config (.inr hop)]
  rfl

/-! ## What a step takes, delivers and leaves unchanged (R32 to R34, R41) -/

/-- Settles O19: a step and every instruction are one transaction. -/
theorem stepTakesOneCommand : Obligations.StepTakesOneCommand := by
  refine ⟨fun s t h => ?step, fun i s t h => ?exec⟩
  case step =>
    obtain ⟨c, rest, hq, rfl⟩ := step_next_cases h
    exact ⟨rfl, c, _, hq, rfl⟩
  case exec =>
    rw [exec_eq_transact] at h
    obtain ⟨c, hq, hconfig, hresponses⟩ := transact_next h
    exact ⟨hconfig, c, _, hq, hresponses⟩

/-- Settles O23: what a step delivers is the answer to its command, which `respond` gives too. -/
theorem responseDependsOnItsCommandOnly : Obligations.ResponseDependsOnItsCommandOnly :=
  fun s c _ hq => ⟨_, respond_eq s.config c, step_of_queue hq⟩

/-- Settles O20: a transaction stops with an empty queue and answers with any other. -/
theorem onlyAnAbsentCommandStops : Obligations.OnlyAnAbsentCommandStops := by
  refine ⟨fun s hq => ⟨step_of_empty hq, fun i => ?empty⟩, fun s hq => ?nonempty⟩
  case empty => rw [exec_eq_transact, transact_of_empty hq]
  case nonempty =>
    obtain ⟨c, rest, hq⟩ := List.exists_cons_of_ne_nil hq
    exact ⟨⟨_, step_of_queue hq⟩, fun i => ⟨_, exec_of_queue hq i⟩⟩

/-- Settles O21, by the fields of the state after reset. -/
theorem resetHoldsNothing : Obligations.ResetHoldsNothing :=
  ⟨rfl, State.reset_queue, State.reset_responses,
    fun cfg => ⟨State.resetWith_config cfg, State.resetWith_queue cfg, State.resetWith_responses cfg⟩,
    rfl, fun _ => ⟨rfl, rfl⟩⟩

theorem step_present {s t : State} (h : step s = .next t) (c : Command) :
    step (s.present c) = .next (t.present c) := by
  obtain ⟨c₀, rest, hq, rfl⟩ := step_next_cases h
  have hq' : (s.present c).queue = c₀ :: (rest ++ [c]) := by rw [State.present_queue, hq]; rfl
  rw [step_of_queue hq']
  rfl

/-- Settles O22: a step takes the command at the head of the queue, and presenting one adds it at the
end. -/
theorem presentingACommandWaitsItsTurn : Obligations.PresentingACommandWaitsItsTurn :=
  ⟨fun s c => ⟨State.present_config s c, State.present_responses s c, State.present_queue s c⟩,
    fun _ _ c h => step_present h c⟩

/-! ## Two instructions by their results (R56, R96) -/

/-- Settles O32: the reserved row's result is the error, whatever its fields are. -/
theorem reservedOpAnswersIllegalOperation : Obligations.ReservedOpAnswersIllegalOperation :=
  fun _ _ _ fa fb p hq => exec_of_resultOf hq (.reserved3 fa fb p) rfl

theorem cmpmResult_of_prefixFromMask (cfg : Config) {f : Family} {c : Command} {p : Nat}
    (h : prefixFromMask (c.operandB f) = .ok p) :
    cmpmResult cfg f f c = guardedCompute cfg (c.operandA f) f p := by
  simp [cmpmResult, h]

/-- Settles O37: past its mask, `CMPM` is the guarded computation that `CMP` is. -/
theorem cmpmDelegatesToCmp : Obligations.CmpmDelegatesToCmp := by
  intro s c rest f fb p q hq h
  rw [exec_of_resultOf hq (.cmpm f f q) (cmpmResult_of_prefixFromMask s.config h),
    exec_of_resultOf hq (.cmp f fb p) rfl]
  rfl

end Sys2Proof.Machine
end

section
/-! PROOFS. Masks as runs of 1-bits (R23, R81 to R86, R91). Every byte of a mask is one of the nine first
bytes a mask can have, by the number of prefix bits left at its place; so a fact about a mask byte is a
fact about nine bytes. A sequence with a given number of leading ones is unique, which gives the round trip
from a mask to its length and back. -/

namespace Sys2Proof.Machine

/-! ## A mask byte by the number of prefix bits left for it -/

/-- Byte `i` of a mask is the first byte of the mask of what is left of the prefix length there. -/
theorem maskByte_eq_firstByte (p i : Nat) : maskByte p i = maskByte (min (p - 8 * i) 8) 0 := by
  apply BitVec.eq_of_getLsbD_eq
  intro j hj
  rw [maskByte_getLsbD p i j hj, maskByte_getLsbD _ 0 j hj, decide_eq_decide]
  omega

theorem firstByte_isCanonical : ∀ k ≤ 8, isCanonicalByte (maskByte k 0) = true := by decide

theorem firstByte_onesIn : ∀ k ≤ 8, onesIn (maskByte k 0) = k := by decide

theorem firstByte_le_iff : ∀ k ≤ 8, (maskByte k 0).toNat ≤ 0xFC ↔ k ≤ 6 := by decide

theorem firstByte_lowBits_iff : ∀ k ≤ 8, (maskByte k 0).extractLsb' 0 2 = 0#2 ↔ k ≤ 6 := by decide

/-- The table of the partial byte (R81). -/
theorem firstByte_eq_table : ∀ k < 8, maskByte k 0 =
    [0x00#8, 0x80#8, 0xC0#8, 0xE0#8, 0xF0#8, 0xF8#8, 0xFC#8, 0xFE#8].getD k 0 := by decide

theorem maskByte_isCanonical (p i : Nat) : isCanonicalByte (maskByte p i) = true := by
  rw [maskByte_eq_firstByte]
  exact firstByte_isCanonical _ (Nat.min_le_right _ _)

theorem onesIn_maskByte (p i : Nat) : onesIn (maskByte p i) = min (p - 8 * i) 8 := by
  rw [maskByte_eq_firstByte]
  exact firstByte_onesIn _ (Nat.min_le_right _ _)

/-- The closed form of a mask byte, by `p div 8` and `p mod 8`. -/
theorem maskByte_closed_form (p i : Nat) :
    maskByte p i =
      if i < p / 8 then 0xFF#8
      else if i = p / 8 then
        [0x00#8, 0x80#8, 0xC0#8, 0xE0#8, 0xF0#8, 0xF8#8, 0xFC#8, 0xFE#8].getD (p % 8) 0
      else 0x00#8 := by
  rw [maskByte_eq_firstByte]
  split
  case isTrue hbelow =>
    rw [show min (p - 8 * i) 8 = 8 by omega]
    decide
  case isFalse hbelow =>
    split
    case isTrue hat =>
      rw [show min (p - 8 * i) 8 = p % 8 by omega]
      exact firstByte_eq_table _ (Nat.mod_lt _ (by decide))
    case isFalse hat =>
      rw [show min (p - 8 * i) 8 = 0 by omega]
      decide

/-! ## The leading ones of a sequence (R23) -/

/-- Bit `j` of byte `i` is the address bit that many places after the first. -/
theorem getLsbD_eq_addressBit (bs : List Byte) {i j : Nat} (hj : j < 8) :
    (bs.getD i 0#8).getLsbD j = addressBit bs (8 * i + (7 - j)) := by
  rw [addressBit, show (8 * i + (7 - j)) / 8 = i by omega,
    show 7 - (8 * i + (7 - j)) % 8 = j by omega]

/-- At most one sequence of a length has a given number of leading ones. -/
theorem hasLeadingOnes_unique {xs ys : List Byte} {p : Nat} (hlen : xs.length = ys.length)
    (hx : hasLeadingOnes xs p) (hy : hasLeadingOnes ys p) : xs = ys := by
  refine (bytes_eq_iff_getD hlen).mpr fun i hi => BitVec.eq_of_getLsbD_eq fun j hj => ?_
  rw [getLsbD_eq_addressBit xs hj, getLsbD_eq_addressBit ys hj, hx _ (by omega), hy _ (by omega)]

theorem hasLeadingOnes_maskFromPrefix {p n : Nat} (hp : p ≤ 8 * n) :
    hasLeadingOnes (maskFromPrefix p n) p := by
  intro k hk
  rw [maskFromPrefix_length] at hk
  rw [addressBit, maskFromPrefix_getD hp (by omega), maskByte_getLsbD _ _ _ (by omega),
    show k / 8 * 8 + (7 - (7 - k % 8)) = k by omega]

/-- The mask of a prefix length is the one sequence with that many leading ones. -/
theorem eq_maskFromPrefix_iff {m : List Byte} {p n : Nat} (hm : m.length = n) (hp : p ≤ 8 * n) :
    maskFromPrefix p n = m ↔ hasLeadingOnes m p := by
  constructor
  · rintro rfl
    exact hasLeadingOnes_maskFromPrefix hp
  · exact hasLeadingOnes_unique ((maskFromPrefix_length p n).trans hm.symm)
      (hasLeadingOnes_maskFromPrefix hp)

theorem maskFromPrefix_all_canonical {p n : Nat} (hp : p ≤ 8 * n) :
    (maskFromPrefix p n).all isCanonicalByte = true := by
  rw [maskFromPrefix_eq hp, List.all_map, List.all_eq_true]
  exact fun i _ => maskByte_isCanonical p i

/-- Settles O38: a mask bit is 1 exactly before the end of the prefix, and a mask byte is one of the nine
canonical bytes. -/
theorem maskIsLeadingOnes : Obligations.MaskIsLeadingOnes := by
  refine fun f p hp => ⟨maskFromPrefix_length p f.len, hasLeadingOnes_maskFromPrefix hp,
    List.all_eq_true.mp (maskFromPrefix_all_canonical hp), fun i hi => ?_⟩
  rw [maskFromPrefix_getD hp hi, maskByte_closed_form]

/-! ## The round trip between masks and prefix lengths (R86) -/

theorem sum_prefix_bits (p n : Nat) :
    ((List.range n).map fun i => min (p - 8 * i) 8).sum = min p (8 * n) := by
  induction n with
  | zero => simp
  | succ n ih =>
    rw [List.range_succ, List.map_append, List.sum_append, ih]
    simp only [List.map_cons, List.map_nil, List.sum_cons, List.sum_nil]
    omega

theorem prefixFromMask_maskFromPrefix {p n : Nat} (hp : p ≤ 8 * n) :
    prefixFromMask (maskFromPrefix p n) = .ok p := by
  have hsum : ((maskFromPrefix p n).map onesIn).sum = p := by
    have hbytes := List.map_congr_left (f := onesIn ∘ maskByte p) (l := List.range n)
      fun i _ => onesIn_maskByte p i
    rw [maskFromPrefix_eq hp, List.map_map, hbytes, sum_prefix_bits, Nat.min_eq_left hp]
  rw [prefixFromMask_of_canonical (maskFromPrefix_all_canonical hp), hsum]

/-- A mask that is reduced is reduced to a length within its bits. -/
theorem prefixFromMask_le {m : List Byte} {p : Nat} (h : prefixFromMask m = .ok p) :
    p ≤ 8 * m.length := by
  cases hall : m.all isCanonicalByte with
  | false => rw [prefixFromMask_of_not_canonical hall] at h; cases h
  | true =>
    rw [prefixFromMask_of_canonical hall] at h
    cases h
    exact sum_onesIn_le m

/-- Expanding the reduced length gives the mask back exactly when it is a run of leading ones: such a run
is the mask of its own length, which it is reduced to. -/
theorem maskFromPrefix_reduced_iff {m : List Byte} {n s : Nat} (hm : m.length = n)
    (h : prefixFromMask m = .ok s) :
    maskFromPrefix s n = m ↔ ∃ q, q ≤ 8 * n ∧ hasLeadingOnes m q := by
  constructor
  · intro e
    have hs : s ≤ 8 * n := hm ▸ prefixFromMask_le h
    exact ⟨s, hs, (eq_maskFromPrefix_iff hm hs).mp e⟩
  · rintro ⟨q, hq, hones⟩
    have e := (eq_maskFromPrefix_iff hm hq).mpr hones
    rw [← e, prefixFromMask_maskFromPrefix hq] at h
    cases h
    exact e

/-- What the unit alone answers to the word of an instruction. -/
theorem respond_encode (cfg : Config) {i : Instr} (hwf : i.wellFormed = true) (a b : Port) :
    respond cfg { cw := encode i, a := a, b := b } =
      some (resultOf i cfg { cw := encode i, a := a, b := b }).toResponse := by
  simp only [respond_eq, answerTo, decodeOfEncode i hwf]

/-- `PFM` of a mask on port `B` answers the length of the mask. -/
theorem pfmResult_of_mask {f : Family} {p : Nat} {c : Command} (hp : p ≤ f.bitlen)
    (hb : c.b = portOf (maskFromPrefix p f.len)) : pfmResult f c = .prefixLen f p := by
  have hmask : prefixFromMask (c.operandB f) = .ok p := by
    rw [Command.operandB, hb, bytesOf_portOf (maskFromPrefix_length p f.len),
      prefixFromMask_maskFromPrefix hp]
  simp only [pfmResult, hmask]

/-- Settles O40: a mask is reduced to its own length, and the two commands are the two functions. -/
theorem maskRoundTrip : Obligations.MaskRoundTrip := by
  refine ⟨fun f p hp => prefixFromMask_maskFromPrefix hp,
    fun f m s hm h => maskFromPrefix_reduced_iff hm h,
    fun cfg f p a b a' r hp h => ?commands, by decide, by decide⟩
  case commands =>
    have hp8 := hp.trans_lt (bitlen_lt f)
    have hmfp := respond_encode cfg ((Instr.wellFormed_iff (.mfp f .v4 p)).mpr hp8) a b
    simp only [resultOf, mfpResult_of_le cfg hp] at hmfp
    cases hmfp.symm.trans h
    refine ⟨_, respond_encode cfg rfl _ _, ?_⟩
    simp only [resultOf]
    rw [pfmResult_of_mask hp rfl]
    exact ⟨rfl, Nat.mod_eq_of_lt hp8⟩

/-! ## The last byte of a mask (R91) -/

/-- The last byte of a mask leaves its two low bits 0 exactly when the prefix leaves two host bits. -/
theorem lastMaskByte_iff {f : Family} {p : Nat} (hp : p ≤ f.bitlen) :
    ((maskByte p (f.len - 1)).toNat ≤ 0xFC ↔ p ≤ f.bitlen - 2) ∧
    ((maskByte p (f.len - 1)).extractLsb' 0 2 = 0#2 ↔ p ≤ f.bitlen - 2) := by
  have hk : min (p - 8 * (f.len - 1)) 8 ≤ 8 := Nat.min_le_right _ _
  have hbits : min (p - 8 * (f.len - 1)) 8 ≤ 6 ↔ p ≤ f.bitlen - 2 := by
    have hpos := f.len_pos
    rw [Family.bitlen] at hp ⊢
    omega
  rw [maskByte_eq_firstByte, ← hbits]
  exact ⟨firstByte_le_iff _ hk, firstByte_lowBits_iff _ hk⟩

theorem usable_maskFromPrefix_iff {f : Family} {p : Nat} (hp : p ≤ f.bitlen) :
    usable (maskFromPrefix p f.len) = true ↔ p ≤ f.bitlen - 2 := by
  obtain ⟨hle, -⟩ := lastMaskByte_iff hp
  rw [usable_eq_decide (maskFromPrefix_length p f.len), decide_eq_true_iff,
    maskFromPrefix_getD hp (Nat.sub_one_lt f.len_pos.ne'), hle]

/-- Settles O41: each form says that the last mask byte has at most six leading ones. -/
theorem usableMeansTwoHostBits : Obligations.UsableMeansTwoHostBits := by
  intro f p hp
  obtain ⟨hle, hlow⟩ := lastMaskByte_iff hp
  rw [usable_maskFromPrefix_iff hp, maskFromPrefix_getD hp (Nat.sub_one_lt f.len_pos.ne'), hle, hlow]
  exact ⟨Iff.rfl, Iff.rfl, Iff.rfl⟩

end Sys2Proof.Machine
end

section
/-! PROOFS. The host range (R91 to R93, R97) and the order of Addresses (R21, D7). A usable mask has its two
low bits 0, so the network address ends in 00 and the broadcast address in 11: the two adjustments of the
last byte cannot overflow, they touch host bits only, and they leave the ends in order. -/

namespace Sys2Proof.Machine

/-! ## The two low bits of a byte -/

theorem lowBits_eq_iff (b : Byte) (k : Nat) :
    b.extractLsb' 0 2 = BitVec.ofNat 2 k ↔ b.toNat % 4 = k % 4 := by
  rw [← BitVec.toNat_inj, BitVec.extractLsb'_toNat, BitVec.toNat_ofNat]
  rfl

theorem incrementByte_of_mod_four {b : Byte} (h : b.toNat % 4 = 0) : incrementByte b = b + 1#8 := by
  refine incrementByte_of_ne ?_
  rintro rfl
  exact absurd h (by decide)

theorem decrementByte_of_mod_four {b : Byte} (h : b.toNat % 4 = 3) : decrementByte b = b - 1#8 := by
  refine decrementByte_of_ne ?_
  rintro rfl
  exact absurd h (by decide)

theorem incrementByte_toNat {b : Byte} (h : b.toNat % 4 = 0) :
    (incrementByte b).toNat = b.toNat + 1 := by
  rw [incrementByte_of_mod_four h]
  bv_omega

theorem decrementByte_toNat {b : Byte} (h : b.toNat % 4 = 3) :
    (decrementByte b).toNat + 1 = b.toNat := by
  rw [decrementByte_of_mod_four h]
  bv_omega

theorem byte_and_one_of_even : ∀ b : Byte, b.toNat % 2 = 0 → b &&& 1#8 = 0#8 := by decide

/-- Adding 1 to an even byte is not seen under an even mask. -/
theorem byte_add_one_and_mask {b m : Byte} (hb : b.toNat % 2 = 0) (hm : m.toNat % 2 = 0) :
    (b + 1#8) &&& m = b &&& m := by
  rw [BitVec.add_eq_or_of_and_eq_zero b 1#8 (byte_and_one_of_even b hb), BitVec.and_or_distrib_right,
    BitVec.and_comm 1#8 m, byte_and_one_of_even m hm, BitVec.or_zero]

theorem byte_or_hostmask_and_mask (x m : Byte) : (x ||| (m ^^^ 0xFF#8)) &&& m = x &&& m := by
  rw [byte_xor_ones, BitVec.and_or_distrib_right, BitVec.not_and_self]
  exact BitVec.or_zero

section MaskByte
variable {m : Byte} (hlow : m.extractLsb' 0 2 = 0#2)
include hlow

/-- A network byte under such a mask byte ends in 00. -/
theorem byte_network_mod_four (x : Byte) : (x &&& m).toNat % 4 = 0 := by
  refine (lowBits_eq_iff _ 0).mp ?_
  rw [BitVec.extractLsb'_and, hlow, BitVec.and_zero]

/-- A broadcast byte over such a mask byte ends in 11. -/
theorem byte_broadcast_mod_four (x : Byte) : (x ||| (m ^^^ 0xFF#8)).toNat % 4 = 3 := by
  refine (lowBits_eq_iff _ 3).mp ?_
  rw [BitVec.extractLsb'_or, BitVec.extractLsb'_xor, hlow]
  exact BitVec.or_allOnes

theorem byte_increment_and_mask {b : Byte} (hb : b.toNat % 4 = 0) : incrementByte b &&& m = b &&& m := by
  have hm : m.toNat % 4 = 0 := (lowBits_eq_iff m 0).mp hlow
  rw [incrementByte_of_mod_four hb]
  exact byte_add_one_and_mask (by omega) (by omega)

theorem byte_decrement_and_mask {b : Byte} (hb : b.toNat % 4 = 3) : decrementByte b &&& m = b &&& m := by
  have hm : m.toNat % 4 = 0 := (lowBits_eq_iff m 0).mp hlow
  have hdec := decrementByte_toNat hb
  have hsucc : decrementByte b + 1#8 = b := by bv_omega
  have h := byte_add_one_and_mask (b := decrementByte b) (m := m) (by omega) (by omega)
  rw [← h, hsucc]

end MaskByte

/-! ## The last byte of the network and of the broadcast address (R97) -/

theorem adjustLast_getD_last (g : Byte → Byte) {bs : List Byte} {n : Nat} (hn : 0 < n)
    (h : bs.length = n) : (adjustLast g bs).getD (n - 1) 0#8 = g (bs.getD (n - 1) 0#8) := by
  rw [adjustLast_getD g bs _ (by omega), if_pos (by omega)]

theorem adjustLast_getD_of_lt (g : Byte → Byte) {bs : List Byte} {n i : Nat} (h : bs.length = n)
    (hi : i < n - 1) : (adjustLast g bs).getD i 0#8 = bs.getD i 0#8 := by
  rw [adjustLast_getD g bs _ (by omega), if_neg (by omega)]

theorem adjustLast_id (bs : List Byte) : adjustLast id bs = bs := by
  fun_induction adjustLast id bs <;> simp_all

section LastByte
variable {a mask : List Byte} {n : Nat} (ha : a.length = n) (hm : mask.length = n)
include ha hm

/-- Byte `i` of the network address. -/
theorem networkOf_getD_of_length {i : Nat} (hi : i < n) :
    (networkOf a mask).getD i 0#8 = a.getD i 0#8 &&& mask.getD i 0#8 :=
  networkOf_getD (by omega) (by omega)

/-- Byte `i` of the broadcast address. -/
theorem broadcastOf_networkOf_getD {i : Nat} (hi : i < n) :
    (broadcastOf (networkOf a mask) mask).getD i 0#8 =
      (networkOf a mask).getD i 0#8 ||| (mask.getD i 0#8 ^^^ 0xFF#8) :=
  broadcastOf_getD (by rw [networkOf_length]; omega) (by omega)

theorem networkOf_le_broadcastOf {i : Nat} (hi : i < n) :
    ((networkOf a mask).getD i 0#8).toNat ≤
      ((broadcastOf (networkOf a mask) mask).getD i 0#8).toNat := by
  rw [broadcastOf_networkOf_getD ha hm hi, BitVec.toNat_or]
  exact Nat.left_le_or

theorem networkOf_and_mask {i : Nat} (hi : i < n) :
    (networkOf a mask).getD i 0#8 &&& mask.getD i 0#8 = (networkOf a mask).getD i 0#8 := by
  rw [networkOf_getD_of_length ha hm hi, BitVec.and_assoc, BitVec.and_self]

theorem broadcastOf_and_mask {i : Nat} (hi : i < n) :
    (broadcastOf (networkOf a mask) mask).getD i 0#8 &&& mask.getD i 0#8 =
      (networkOf a mask).getD i 0#8 := by
  rw [broadcastOf_networkOf_getD ha hm hi, byte_or_hostmask_and_mask, networkOf_and_mask ha hm hi]

variable (hn : 0 < n) (hlow : (mask.getD (n - 1) 0#8).extractLsb' 0 2 = 0#2)
include hn hlow

theorem network_last_mod_four : ((networkOf a mask).getD (n - 1) 0#8).toNat % 4 = 0 := by
  rw [networkOf_getD_of_length ha hm (Nat.sub_one_lt hn.ne')]
  exact byte_network_mod_four hlow _

theorem broadcast_last_mod_four :
    ((broadcastOf (networkOf a mask) mask).getD (n - 1) 0#8).toNat % 4 = 3 := by
  rw [broadcastOf_networkOf_getD ha hm (Nat.sub_one_lt hn.ne')]
  exact byte_broadcast_mod_four hlow _

end LastByte

/-- The last mask byte of a prefix length that leaves two host bits ends in 00. -/
theorem lastMaskByte_lowBits {f : Family} {p : Nat} (hp : p ≤ f.bitlen - 2) :
    ((maskFromPrefix p f.len).getD (f.len - 1) 0#8).extractLsb' 0 2 = 0#2 := by
  have hle : p ≤ f.bitlen := hp.trans (Nat.sub_le _ _)
  obtain ⟨-, hlow⟩ := lastMaskByte_iff hle
  rw [maskFromPrefix_getD hle (Nat.sub_one_lt f.len_pos.ne')]
  exact hlow.mpr hp

/-- Settles O42: the last network byte ends in 00 and the last broadcast byte in 11, and the rest is
arithmetic on a byte. -/
theorem lastByteCannotOverflow : Obligations.LastByteCannotOverflow := by
  intro f a p ha hp mask network broadcast n
  have hpos := f.len_pos
  have hm : mask.length = f.len := maskFromPrefix_length p f.len
  have hnet : (network.getD n 0#8).toNat % 4 = 0 :=
    network_last_mod_four ha hm hpos (lastMaskByte_lowBits hp)
  have hbroadcast : (broadcast.getD n 0#8).toNat % 4 = 3 :=
    broadcast_last_mod_four ha hm hpos (lastMaskByte_lowBits hp)
  have hlt := (network.getD n 0#8).isLt
  have hinc := incrementByte_toNat hnet
  have hdec := decrementByte_toNat hbroadcast
  have hfirst : (adjustLast incrementByte network).getD n 0#8 = incrementByte (network.getD n 0#8) :=
    adjustLast_getD_last _ hpos (by simp [network, ha, hm])
  have hlast : (adjustLast decrementByte broadcast).getD n 0#8 = decrementByte (broadcast.getD n 0#8) :=
    adjustLast_getD_last _ hpos (by simp [broadcast, network, ha, hm])
  refine ⟨by omega, by omega, _, _,
    hostRange_of_usable ((usable_maskFromPrefix_iff (hp.trans (Nat.sub_le _ _))).mpr hp), ?_⟩
  rw [hfirst, hlast]
  exact ⟨hinc, by omega, (lowBits_eq_iff _ 1).mpr (by omega), hdec, by omega,
    (lowBits_eq_iff _ 2).mpr (by omega)⟩

/-! ## A port as a number in the order of Addresses (R21, R43, D7) -/

/-- Different leading bytes decide between two numbers, whatever follows them. -/
theorem lead_lt_iff {x y u v k : Nat} (hu : u < k) (hv : v < k) (hne : x ≠ y) :
    x * k + u < y * k + v ↔ x < y := by
  have hx : (x * k + u) / k = x := by
    rw [Nat.mul_comm, Nat.mul_add_div (by omega), Nat.div_eq_of_lt hu, Nat.add_zero]
  have hy : (y * k + v) / k = y := by
    rw [Nat.mul_comm, Nat.mul_add_div (by omega), Nat.div_eq_of_lt hv, Nat.add_zero]
  constructor
  · intro h
    have hle : (x * k + u) / k ≤ (y * k + v) / k := Nat.div_le_div_right h.le
    omega
  · intro h
    exact Nat.lt_of_div_lt_div (by rwa [hx, hy])

/-- The order of byte sequences of one length is that of the numbers they spell. -/
theorem bytesLess_eq_decide {as bs : List Byte} (h : as.length = bs.length) :
    bytesLess as bs = decide (bytesValue as < bytesValue bs) := by
  induction as generalizing bs with
  | nil => cases bs with
    | nil => rfl
    | cons y bs => cases h
  | cons x as ih => cases bs with
    | nil => cases h
    | cons y bs =>
      have hlen : as.length = bs.length := Nat.succ.inj h
      rw [bytesLess, bytesValue_cons, bytesValue_cons, hlen]
      by_cases hxy : x = y
      · subst hxy
        rw [if_pos rfl, ih hlen, decide_eq_decide, Nat.add_lt_add_iff_left]
      · rw [if_neg hxy, decide_eq_decide]
        exact (lead_lt_iff (hlen ▸ bytesValue_lt as) (bytesValue_lt bs)
          (fun e => hxy (BitVec.eq_of_toNat_eq e))).symm

theorem bytesValue_append (as bs : List Byte) :
    bytesValue (as ++ bs) = bytesValue as * 2 ^ (8 * bs.length) + bytesValue bs := by
  rw [bytesValue, List.foldl_append]
  exact foldl_bytes_eq bs _

/-- A port is the number its sixteen lanes spell. -/
theorem port_toNat (x : Port) : x.toNat = bytesValue (bytesOf .v6 x) := by
  have hx : portOf (bytesOf .v6 x) = x := port_ext fun i hi => lane_portOf_bytesOf (f := .v6) x hi
  have h := portOf_toNat (bytesOf .v6 x) 0 (bytesOf_length .v6 x)
  rw [hx] at h
  simpa using h

/-- The upper bits of a port are the number of the Address on it: the lanes beyond it spell a number
below its lowest bit. -/
theorem bytesValue_bytesOf (f : Family) (x : Port) :
    bytesValue (bytesOf f x) = x.toNat / 2 ^ (128 - f.bitlen) := by
  have hle := f.len_le
  have htake : (bytesOf .v6 x).take f.len = bytesOf f x := by
    simp only [bytesOf, ← List.map_take, List.take_range, Family.len_v6, Nat.min_eq_left hle]
  have hdrop : 8 * ((bytesOf .v6 x).drop f.len).length = 128 - f.bitlen := by
    simp only [List.length_drop, bytesOf_length, Family.len_v6, Family.bitlen]
    omega
  have hlow := bytesValue_lt ((bytesOf .v6 x).drop f.len)
  rw [port_toNat, ← List.take_append_drop f.len (bytesOf .v6 x), bytesValue_append, htake]
  rw [hdrop] at hlow ⊢
  rw [Nat.mul_comm, Nat.mul_add_div (Nat.two_pow_pos _), Nat.div_eq_of_lt hlow, Nat.add_zero]

/-- Settles O13: an Address orders as the number it spells, which is what the upper bits of its port are. -/
theorem portNumberOrdersAddresses : Obligations.PortNumberOrdersAddresses := by
  intro f x y
  have hlen : (bytesOf f x).length = (bytesOf f y).length := by simp
  rw [addressLess_of_length_eq hlen, bytesLess_eq_decide hlen, bytesValue_bytesOf, bytesValue_bytesOf]

/-! ## The host range inside the subnet (R21, R90, R92) -/

/-- A sequence that is nowhere larger and somewhere smaller is less. -/
theorem lessAtFirstDifference_of_le {as bs : List Byte} (h : as.length = bs.length)
    (hle : ∀ i, i < as.length → (as.getD i 0#8).toNat ≤ (bs.getD i 0#8).toNat)
    (hlt : ∃ i, i < as.length ∧ (as.getD i 0#8).toNat < (bs.getD i 0#8).toNat) :
    LessAtFirstDifference as bs := by
  induction as generalizing bs with
  | nil =>
    obtain ⟨i, hi, -⟩ := hlt
    exact absurd hi (Nat.not_lt_zero i)
  | cons x as ih => cases bs with
    | nil => cases h
    | cons y bs =>
      by_cases hxy : x = y
      · subst hxy
        refine (lessAtFirstDifference_cons_same x as bs).mpr (ih (Nat.succ.inj h)
          (fun i hi => hle (i + 1) (Nat.succ_lt_succ hi)) ?_)
        obtain ⟨i, hi, hlt⟩ := hlt
        cases i with
        | zero => exact absurd hlt (Nat.lt_irrefl _)
        | succ i => exact ⟨i, Nat.lt_of_succ_lt_succ hi, hlt⟩
      · have hhead : x.toNat ≤ y.toNat := hle 0 (Nat.succ_pos _)
        exact (lessAtFirstDifference_cons_ne hxy as bs).mpr
          (lt_of_le_of_ne hhead fun e => hxy (BitVec.eq_of_toNat_eq e))

section AdjustLast
variable {g g' : Byte → Byte} {as bs : List Byte} {n : Nat} (hn : 0 < n) (ha : as.length = n)
  (hb : bs.length = n)
include hn ha hb

/-- After their last bytes are adjusted, two sequences are in order when those bytes are and no other
byte is out of order. -/
theorem addressLess_adjustLast
    (hle : ∀ i, i < n - 1 → (as.getD i 0#8).toNat ≤ (bs.getD i 0#8).toNat)
    (hlt : (g (as.getD (n - 1) 0#8)).toNat < (g' (bs.getD (n - 1) 0#8)).toNat) :
    addressLess (adjustLast g as) (adjustLast g' bs) = some true := by
  have hlen : (adjustLast g as).length = (adjustLast g' bs).length := by simp [ha, hb]
  rw [addressLess_of_length_eq hlen, Option.some_inj, bytesLess_iff hlen]
  rw [← adjustLast_getD_last g hn ha, ← adjustLast_getD_last g' hn hb] at hlt
  have hlast : n - 1 < (adjustLast g as).length := by rw [adjustLast_length]; omega
  refine lessAtFirstDifference_of_le hlen (fun i hi => ?_) ⟨n - 1, hlast, hlt⟩
  rw [adjustLast_length, ha] at hi
  rcases Nat.lt_or_eq_of_le (Nat.le_sub_one_of_lt hi) with hi | rfl
  · rw [adjustLast_getD_of_lt g ha hi, adjustLast_getD_of_lt g' hb hi]
    exact hle i hi
  · exact hlt.le

/-- Adjusting a last byte outside the mask keeps the sequence in its subnet. -/
theorem networkOf_adjustLast {mask : List Byte} (hm : mask.length = n)
    (hrest : ∀ i, i < n - 1 → as.getD i 0#8 &&& mask.getD i 0#8 = bs.getD i 0#8)
    (hlast : g (as.getD (n - 1) 0#8) &&& mask.getD (n - 1) 0#8 = bs.getD (n - 1) 0#8) :
    networkOf (adjustLast g as) mask = bs := by
  refine (bytes_eq_iff_getD (by simp [ha, hb, hm])).mpr fun i hi => ?_
  have hin : i < n := by simpa [ha, hm] using hi
  rw [networkOf_getD (by rw [adjustLast_length]; omega) (by omega)]
  rcases Nat.lt_or_eq_of_le (Nat.le_sub_one_of_lt hin) with hi | rfl
  · rw [adjustLast_getD_of_lt g ha hi]
    exact hrest i hi
  · rw [adjustLast_getD_last g hn ha]
    exact hlast

end AdjustLast

/-- Under a mask whose last byte ends in 00, `first` and `last` stand in order between the network and the
broadcast address, and in the same subnet: they differ from those in the last byte only, by one, where at
least three lie between them, and in a bit that is no mask bit. -/
theorem adjusted_ends_inside {a mask : List Byte} {n : Nat} (hn : 0 < n) (ha : a.length = n)
    (hm : mask.length = n) (hlow : (mask.getD (n - 1) 0#8).extractLsb' 0 2 = 0#2) :
    addressLess (networkOf a mask) (adjustLast incrementByte (networkOf a mask)) = some true ∧
    addressLess (adjustLast incrementByte (networkOf a mask))
      (adjustLast decrementByte (broadcastOf (networkOf a mask) mask)) = some true ∧
    addressLess (adjustLast decrementByte (broadcastOf (networkOf a mask) mask))
      (broadcastOf (networkOf a mask) mask) = some true ∧
    networkOf (adjustLast incrementByte (networkOf a mask)) mask = networkOf a mask ∧
    networkOf (adjustLast decrementByte (broadcastOf (networkOf a mask) mask)) mask =
      networkOf a mask := by
  have hN : (networkOf a mask).length = n := by simp [ha, hm]
  have hB : (broadcastOf (networkOf a mask) mask).length = n := by simp [ha, hm]
  have hlast : n - 1 < n := Nat.sub_one_lt hn.ne'
  have hnet := network_last_mod_four ha hm hn hlow
  have hbroadcast := broadcast_last_mod_four ha hm hn hlow
  have hinc := incrementByte_toNat hnet
  have hdec := decrementByte_toNat hbroadcast
  have hle := networkOf_le_broadcastOf ha hm hlast
  refine ⟨?networkFirst, ?firstLast, ?lastBroadcast, ?subnetFirst, ?subnetLast⟩
  case networkFirst =>
    have h := addressLess_adjustLast (g := id) hn hN hN (fun _ _ => le_rfl) hinc.ge
    rwa [adjustLast_id] at h
  case firstLast =>
    exact addressLess_adjustLast hn hN hB
      (fun i hi => networkOf_le_broadcastOf ha hm (by omega)) (by omega)
  case lastBroadcast =>
    have h := addressLess_adjustLast (g' := id) hn hB hB (fun _ _ => le_rfl) hdec.le
    rwa [adjustLast_id] at h
  case subnetFirst =>
    refine networkOf_adjustLast hn hN hN hm (fun i hi => networkOf_and_mask ha hm (by omega)) ?_
    rw [byte_increment_and_mask hlow hnet, networkOf_and_mask ha hm hlast]
  case subnetLast =>
    refine networkOf_adjustLast hn hB hN hm (fun i hi => broadcastOf_and_mask ha hm (by omega)) ?_
    rw [byte_decrement_and_mask hlow hbroadcast, broadcastOf_and_mask ha hm hlast]

/-- Settles O44: a range is present only under a usable mask, and its ends are the adjusted network and
broadcast address. -/
theorem hostRangeLiesInsideTheSubnet : Obligations.HostRangeLiesInsideTheSubnet := by
  intro f a p first last ha hp h
  have hm := maskFromPrefix_length p f.len
  have husable : usable (maskFromPrefix p f.len) = true := by
    rw [← hostRange_isSome (networkOf a (maskFromPrefix p f.len)), ← compute_range, h]
    rfl
  have hlow := lastMaskByte_lowBits ((usable_maskFromPrefix_iff hp).mp husable)
  obtain ⟨rfl, rfl, -, -⟩ := hostRange_some f.len_pos ha hm h
  exact adjusted_ends_inside f.len_pos ha hm hlow

end Sys2Proof.Machine
end

section
/-! PROOFS. The shape of every response, the two forms of a response, and which error a command reports
(R23, R30, R31, R101, R112 to R114). What an instruction can answer is said once, as the relation `Answers`
between it and a tagged result; the shape of a response, its type and its reading are then five cases. -/

namespace Sys2Proof.Machine

/-! ## All that an instruction can answer (R30, R31) -/

/-- `x` is a tagged result that the instruction `i` can have: an error, or what the commands of its group
produce, with a prefix length within the bit length. -/
inductive Answers (i : Instr) : Result → Prop where
  | error (k : ErrorKind) : Answers i (.error k)
  | bytes {f : Family} {y : List Byte} (hop : i.opcode = 0#3 ∨ i.opcode = 1#3 ∨ i.opcode = 2#3)
      (hy : y.length = f.len) : Answers i (.bytes f y)
  | maskOut {f : Family} {p : Nat} (hop : i.opcode = 4#3) (hp : p ≤ f.bitlen) :
      Answers i (.maskOut f (maskFromPrefix p f.len))
  | prefixLen {f : Family} {p : Nat} (hop : i.opcode = 5#3) (hp : p ≤ f.bitlen) :
      Answers i (.prefixLen f p)
  | info {f : Family} {a : Port} {p : Nat} (hop : i.opcode = 6#3 ∨ i.opcode = 7#3)
      (hp : p ≤ f.bitlen) : Answers i (.info (compute (bytesOf f a) f p))

section Rows
variable {i : Instr}

theorem answers_byteOp (hop : i.opcode = 0#3 ∨ i.opcode = 1#3 ∨ i.opcode = 2#3)
    (g : Byte → Byte → Byte) (fa fb : Family) (c : Command) : Answers i (byteOp g fa fb c) := by
  by_cases hf : fa = fb
  · subst hf
    rw [byteOp_self]
    exact .bytes hop (by simp)
  · rw [byteOp_of_ne g hf]
    exact .error _

theorem answers_mfp (hop : i.opcode = 4#3) (cfg : Config) (f : Family) (p : Nat) :
    Answers i (mfpResult cfg f p) := by
  by_cases hp : p ≤ f.bitlen
  · rw [mfpResult_of_le cfg hp]
    exact .maskOut hop hp
  · rw [mfpResult_of_gt cfg (Nat.lt_of_not_le hp)]
    exact .error _

theorem answers_pfm (hop : i.opcode = 5#3) (f : Family) (c : Command) :
    Answers i (pfmResult f c) := by
  cases h : lanesCanonical f.len c.b with
  | true =>
    rw [pfmResult_of_canonical h]
    exact .prefixLen hop (onesInLanes_le_bitlen f c.b)
  | false =>
    rw [pfmResult_of_not_canonical h]
    exact .error _

theorem answers_guardedCompute (hop : i.opcode = 6#3 ∨ i.opcode = 7#3) (cfg : Config) (a : Port)
    (f : Family) (p : Nat) : Answers i (guardedCompute cfg (bytesOf f a) f p) := by
  rcases prefixGuard_cases cfg p f true with ⟨hg, hp, -⟩ | ⟨hg, -⟩
  · rw [guardedCompute_ok hg]
    exact .info hop hp
  · rw [guardedCompute_error hg]
    exact .error _

theorem answers_cmpm (hop : i.opcode = 6#3 ∨ i.opcode = 7#3) (cfg : Config) (fa fb : Family)
    (c : Command) : Answers i (cmpmResult cfg fa fb c) := by
  by_cases hf : fa = fb
  · subst hf
    cases h : lanesCanonical fa.len c.b with
    | true =>
      rw [cmpmResult_of_canonical cfg h]
      exact answers_guardedCompute hop cfg c.a fa _
    | false =>
      rw [cmpmResult_of_not_canonical cfg h]
      exact .error _
  · rw [cmpmResult_of_ne cfg hf]
    exact .error _

end Rows

theorem answers_resultOf (i : Instr) (cfg : Config) (c : Command) : Answers i (resultOf i cfg c) := by
  cases i with
  | band fa fb p => exact answers_byteOp (.inl rfl) _ fa fb c
  | bor fa fb p => exact answers_byteOp (.inr (.inl rfl)) _ fa fb c
  | bxor fa fb p => exact answers_byteOp (.inr (.inr rfl)) _ fa fb c
  | reserved3 fa fb p => exact .error _
  | mfp fa fb p => exact answers_mfp rfl cfg fa p
  | pfm fa fb p => exact answers_pfm rfl fb c
  | cmp fa fb p => exact answers_guardedCompute (.inl rfl) cfg c.a fa p
  | cmpm fa fb p => exact answers_cmpm (.inr rfl) cfg fa fb c

/-! ## The shape of a response (R23, R30, R91 to R93, R113) -/

/-- The zero port is the mask of the prefix length 0. -/
theorem hasLeadingOnes_zero (f : Family) : ∃ p, p ≤ f.bitlen ∧ hasLeadingOnes (bytesOf f 0) p := by
  have h0 : maskFromPrefix 0 f.len = bytesOf f 0 := by
    rw [maskFromPrefix_eq (Nat.zero_le _)]
    exact List.map_congr_left fun i _ => (maskByte_zero i).trans (lane_zero i).symm
  exact ⟨0, Nat.zero_le _, h0 ▸ hasLeadingOnes_maskFromPrefix (Nat.zero_le _)⟩

/-- A response without addresses is well shaped when `PLEN`, `Y` and `MASK` are. -/
theorem wellShaped_of_no_addresses {r : Response}
    (herr : ∀ k, r.st = .error k → r = Response.failed k) (hr : r.hr = false) (haddr : r.addr = 0)
    (hnet : r.net = 0) (hfirst : r.first = 0) (hlast : r.last = 0)
    (hplen : r.plen.toNat ≤ r.fr.bitlen) (hy : zeroFrom r.fr.len r.y)
    (hmask : zeroFrom r.fr.len r.mask)
    (hones : ∃ p, p ≤ r.fr.bitlen ∧ hasLeadingOnes (bytesOf r.fr r.mask) p) : r.WellShaped where
  error := herr
  lanes := by
    rw [haddr, hnet, hfirst, hlast]
    exact ⟨hy, zeroFrom_zero _, zeroFrom_zero _, hmask, zeroFrom_zero _, zeroFrom_zero _⟩
  plen := hplen
  mask := hones
  absent _ := ⟨hfirst, hlast⟩
  range h := by rw [hr] at h; cases h

theorem failed_wellShaped (k : ErrorKind) : (Response.failed k).WellShaped :=
  wellShaped_of_no_addresses (fun _ h => Result.toResponse_eq_failed (x := .error k) h) rfl rfl rfl rfl
    rfl (Nat.zero_le _) (zeroFrom_zero _) (zeroFrom_zero _) (hasLeadingOnes_zero _)

section CarriesSubnet
variable {r : Response} {f : Family} {a : Port} {p : Nat}

theorem CarriesSubnet.bytesOf_mask (h : CarriesSubnet r f a p) (hp : p ≤ f.bitlen) :
    bytesOf f r.mask = maskFromPrefix p f.len := by
  obtain ⟨hmask, -⟩ := h.mask
  rw [maskFromPrefix_eq hp]
  exact List.map_congr_left fun i hi => hmask i (List.mem_range.mp hi)

theorem CarriesSubnet.hr_iff (h : CarriesSubnet r f a p) (hp : p ≤ f.bitlen) :
    r.hr = true ↔ p ≤ f.bitlen - 2 := by
  obtain ⟨hle, -⟩ := lastMaskByte_iff hp
  rw [h.hr, decide_eq_true_iff, hle]

/-- `NET` is `ADDR` under `MASK` in every lane, also in those beyond the family, which are zero. -/
theorem CarriesSubnet.net_eq (h : CarriesSubnet r f a p) : r.net = r.addr &&& r.mask := by
  obtain ⟨hnet, znet⟩ := h.net
  obtain ⟨hmask, zmask⟩ := h.mask
  obtain ⟨haddr, -⟩ := h.addr
  refine port_ext fun i hi => ?_
  rw [lane_and]
  by_cases hf : i < f.len
  · rw [hnet i hf, haddr i hf, hmask i hf]
  · rw [znet i (Nat.le_of_not_lt hf) hi, zmask i (Nat.le_of_not_lt hf) hi]
    exact BitVec.and_zero.symm

theorem CarriesSubnet.zeroFrom_ends (h : CarriesSubnet r f a p) :
    zeroFrom f.len r.first ∧ zeroFrom f.len r.last := by
  cases hr : r.hr with
  | true =>
    obtain ⟨-, -, zfirst⟩ := h.first hr
    obtain ⟨-, -, zlast⟩ := h.last hr
    exact ⟨zfirst, zlast⟩
  | false =>
    obtain ⟨hfirst, hlast⟩ := h.absent hr
    rw [hfirst, hlast]
    exact ⟨zeroFrom_zero _, zeroFrom_zero _⟩

theorem CarriesSubnet.wellShaped (h : CarriesSubnet r f a p) (hp : p ≤ f.bitlen) : r.WellShaped := by
  obtain ⟨-, zaddr⟩ := h.addr
  obtain ⟨-, znet⟩ := h.net
  obtain ⟨-, zmask⟩ := h.mask
  obtain ⟨zfirst, zlast⟩ := h.zeroFrom_ends
  have hones : hasLeadingOnes (bytesOf f r.mask) p :=
    h.bytesOf_mask hp ▸ hasLeadingOnes_maskFromPrefix hp
  obtain rfl := h.fr
  obtain rfl := h.plen
  refine ⟨fun k hk => ?error, ⟨?y, zaddr, znet, zmask, zfirst, zlast⟩, hp, ⟨_, hp, hones⟩, h.absent,
    fun hr => ?range⟩
  case error => rw [h.st] at hk; cases hk
  case y => rw [h.y]; exact zeroFrom_zero _
  case range =>
    obtain ⟨-, hfirst, -⟩ := h.first hr
    obtain ⟨-, hlast, -⟩ := h.last hr
    exact ⟨(h.hr_iff hp).mp hr, hones, h.net_eq, hfirst, hlast⟩

end CarriesSubnet

theorem Answers.wellShaped {i : Instr} {x : Result} (h : Answers i x) : x.toResponse.WellShaped := by
  cases h with
  | error k => exact failed_wellShaped k
  | bytes _ hy =>
    exact wellShaped_of_no_addresses (fun _ h => by cases h) rfl rfl rfl rfl rfl (Nat.zero_le _)
      (zeroFrom_portOf hy.le) (zeroFrom_zero _) (hasLeadingOnes_zero _)
  | @maskOut f p _ hp =>
    refine wellShaped_of_no_addresses (fun _ h => by cases h) rfl rfl rfl rfl rfl (Nat.zero_le _)
      (zeroFrom_zero _) (zeroFrom_portOf (maskFromPrefix_length p f.len).le) ⟨p, hp, ?_⟩
    exact (bytesOf_portOf (maskFromPrefix_length p f.len)).symm ▸ hasLeadingOnes_maskFromPrefix hp
  | @prefixLen f p _ hp =>
    exact wellShaped_of_no_addresses (fun _ h => by cases h) rfl rfl rfl rfl rfl
      ((Nat.mod_le _ _).trans hp) (zeroFrom_zero _) (zeroFrom_zero _) (hasLeadingOnes_zero _)
  | @info f a p _ hp => exact (carriesSubnet_compute a hp).wellShaped hp

theorem answerTo_wellShaped (cfg : Config) (c : Command) : (answerTo cfg c).toResponse.WellShaped := by
  unfold answerTo
  split
  · exact (answers_resultOf _ cfg c).wellShaped
  · exact failed_wellShaped _

/-- Settles O26: a step adds one response, the answer to its command, to those that are well shaped
already. -/
theorem stepKeepsResponsesWellShaped : Obligations.StepKeepsResponsesWellShaped := by
  intro s t hgood h
  obtain ⟨c, rest, -, rfl⟩ := step_next_cases h
  intro r hr
  rcases List.mem_append.mp hr with hold | hnew
  · exact hgood r hold
  · obtain rfl := List.mem_singleton.mp hnew
    exact answerTo_wellShaped s.config c

/-- Settles O27: after reset no response has been delivered. -/
theorem resetIsGood : Obligations.ResetIsGood :=
  ⟨fun _ h => absurd h List.not_mem_nil, fun _ _ h => absurd h List.not_mem_nil⟩

/-! ## The flat and the tagged form of a response (R31) -/

/-- The ports of well-typed subnet information are read as the bytes put on them. -/
theorem readInfo_toResponse {x : SubnetInfo} (h : (Result.info x).wellTyped) :
    (Result.info x).toResponse.readInfo = x := by
  obtain ⟨f, a, n, m, p, range⟩ := x
  obtain ⟨ha, hn, hm, hp, hrange⟩ := h
  have hplen : (BitVec.ofNat 8 p).toNat = p := Nat.mod_eq_of_lt (hp.trans_lt (bitlen_lt f))
  cases range with
  | none =>
    simp only [Response.readInfo, Result.toResponse, bytesOf_portOf ha, bytesOf_portOf hn,
      bytesOf_portOf hm, hplen]
    rfl
  | some ends =>
    obtain ⟨hfirst, hlast⟩ := hrange ends.1 ends.2 rfl
    simp only [Response.readInfo, Result.toResponse, bytesOf_portOf ha, bytesOf_portOf hn,
      bytesOf_portOf hm, hplen, Option.map_some, portOfOption, bytesOf_portOf hfirst,
      bytesOf_portOf hlast]
    rfl

theorem Answers.wellTyped {i : Instr} {x : Result} (h : Answers i x) : x.wellTyped := by
  cases h with
  | error k => trivial
  | bytes _ hy => exact hy
  | maskOut _ _ => exact maskFromPrefix_length _ _
  | prefixLen _ hp => exact hp
  | @info f a p _ hp =>
    have ha := bytesOf_length f a
    exact ⟨ha, by simp, by simp, hp, fun _ _ => compute_range_lengths ha⟩

section Read
variable {i : Instr} {r : Response} (hst : r.st = .ok)
include hst

theorem read_byteOp (hop : i.opcode = 0#3 ∨ i.opcode = 1#3 ∨ i.opcode = 2#3) :
    r.read i = .bytes r.fr (bytesOf r.fr r.y) := by
  cases i with
  | band | bor | bxor => simp only [Response.read, hst]
  | reserved3 | mfp | pfm | cmp | cmpm => simp [Instr.opcode] at hop

theorem read_mfp (hop : i.opcode = 4#3) : r.read i = .maskOut r.fr (bytesOf r.fr r.mask) := by
  cases i with
  | mfp => simp only [Response.read, hst]
  | band | bor | bxor | reserved3 | pfm | cmp | cmpm => simp [Instr.opcode] at hop

theorem read_pfm (hop : i.opcode = 5#3) : r.read i = .prefixLen r.fr r.plen.toNat := by
  cases i with
  | pfm => simp only [Response.read, hst]
  | band | bor | bxor | reserved3 | mfp | cmp | cmpm => simp [Instr.opcode] at hop

theorem read_subnet (hop : i.opcode = 6#3 ∨ i.opcode = 7#3) : r.read i = .info r.readInfo := by
  cases i with
  | cmp | cmpm => simp only [Response.read, hst]
  | band | bor | bxor | reserved3 | mfp | pfm => simp [Instr.opcode] at hop

end Read

/-- Read with the instruction it answers, the flat form of a result is the result. -/
theorem Answers.read_toResponse {i : Instr} {x : Result} (h : Answers i x) :
    x.toResponse.read i = x := by
  cases h with
  | error k => rfl
  | @bytes f y hop hy =>
    exact (read_byteOp rfl hop).trans (congrArg (Result.bytes f) (bytesOf_portOf hy))
  | @maskOut f p hop hp =>
    exact (read_mfp rfl hop).trans
      (congrArg (Result.maskOut f) (bytesOf_portOf (maskFromPrefix_length p f.len)))
  | @prefixLen f p hop hp =>
    exact (read_pfm rfl hop).trans
      (congrArg (Result.prefixLen f) (Nat.mod_eq_of_lt (hp.trans_lt (bitlen_lt f))))
  | @info f a p hop hp =>
    exact (read_subnet rfl hop).trans
      (congrArg Result.info (readInfo_toResponse (Answers.info (a := a) hop hp).wellTyped))

/-- Settles O51: the host reads back the tagged result the unit made the response from. -/
theorem flatAndTaggedResponsesAgree : Obligations.FlatAndTaggedResponsesAgree := by
  intro cfg c i r hdecode h
  have hans : answerTo cfg c = resultOf i cfg c := by simp only [answerTo, hdecode]
  cases (respond_eq cfg c).symm.trans h
  rw [hans, (answers_resultOf i cfg c).read_toResponse]
  exact ⟨(answers_resultOf i cfg c).wellTyped, rfl⟩

/-! ## The boundaries of `CMP` (R101) -/

section Inside
variable {cfg : Config} (a : Port) {f : Family} {p : Nat}
  (hs : ¬ (cfg.strictV6 = true ∧ f = .v6 ∧ p > 126))
include hs

/-- Where two host bits are left, `CMP` succeeds with a range. -/
theorem guardedCompute_with_range (hp : p ≤ f.bitlen - 2) :
    (guardedCompute cfg (bytesOf f a) f p).toResponse.st = .ok ∧
    (guardedCompute cfg (bytesOf f a) f p).toResponse.hr = true := by
  have hle : p ≤ f.bitlen := hp.trans (Nat.sub_le _ _)
  rw [guardedCompute_of_inside _ hle hs]
  exact ⟨rfl, ((carriesSubnet_compute a hle).hr_iff hle).mpr hp⟩

/-- Where fewer are left, `CMP` succeeds without one. -/
theorem guardedCompute_without_range (hp : p ≤ f.bitlen) (hbits : ¬ p ≤ f.bitlen - 2) :
    (guardedCompute cfg (bytesOf f a) f p).toResponse.st = .ok ∧
    (guardedCompute cfg (bytesOf f a) f p).toResponse.hr = false := by
  rw [guardedCompute_of_inside _ hp hs]
  exact ⟨rfl, Bool.eq_false_iff.mpr fun hr => hbits (((carriesSubnet_compute a hp).hr_iff hp).mp hr)⟩

end Inside

theorem guardedCompute_status_of_outside {cfg : Config} (a : List Byte) {f : Family} {p : Nat}
    (h : p > f.bitlen ∨ (cfg.strictV6 = true ∧ f = .v6 ∧ p > 126)) :
    (guardedCompute cfg a f p).toResponse.st = .error .prefixOutOfRange := by
  rw [guardedCompute_of_outside a h]
  rfl

/-- Settles O47: the guard, and where it passes the two host bits, at each boundary of the table. -/
theorem boundaryTable : Obligations.BoundaryTable := by
  intro cfg f fb p a b hp
  refine ⟨_, respond_cmp cfg f fb hp a b, ?v4Range, ?v4NoRange, ?v4Above, ?v6Range, ?v6NoRange, ?v6Above⟩
  case v4Range =>
    rintro rfl h
    exact guardedCompute_with_range a (fun ⟨_, hv6, _⟩ => nomatch hv6) h
  case v4NoRange =>
    rintro rfl h h'
    exact guardedCompute_without_range a (fun ⟨_, hv6, _⟩ => nomatch hv6) h' (Nat.not_le_of_lt h)
  case v4Above =>
    rintro rfl h
    exact guardedCompute_status_of_outside _ (.inl h)
  case v6Range =>
    rintro rfl h
    exact guardedCompute_with_range a (fun ⟨_, _, habove⟩ => Nat.not_le_of_lt habove h) h
  case v6NoRange =>
    rintro rfl h h'
    split
    case isTrue hstrict => exact guardedCompute_status_of_outside _ (.inr ⟨hstrict, rfl, h⟩)
    case isFalse hstrict =>
      exact guardedCompute_without_range a (fun ⟨htrue, _⟩ => hstrict htrue) h' (Nat.not_le_of_lt h)
  case v6Above =>
    rintro rfl h
    exact guardedCompute_status_of_outside _ (.inl h)

/-! ## Which error a command reports (R112, R114) -/

/-- The status that an error condition of the table, or none, stands for. -/
def Status.ofError : Option ErrorKind → Status
  | none => .ok
  | some k => .error k

section FirstError
variable {cfg : Config} {c : Command}

theorem firstError_of_illegal (h : rsvField c.cw ≠ 0#3 ∨ opField c.cw = 3#3) :
    firstError cfg c = some .illegalOperation := if_pos h

variable (hrsv : rsvField c.cw = 0#3)
include hrsv

theorem firstError_byteOp (hop : opField c.cw = 0#3 ∨ opField c.cw = 1#3 ∨ opField c.cw = 2#3) :
    firstError cfg c = if faField c.cw ≠ fbField c.cw then some .lengthMismatch else none := by
  rcases hop with hop | hop | hop <;> simp [firstError, hrsv, hop]

theorem firstError_mfp (hop : opField c.cw = 4#3) :
    firstError cfg c =
      if pField c.cw > (faField c.cw).bitlen then some .prefixOutOfRange else none := by
  simp [firstError, hrsv, hop]

theorem firstError_pfm (hop : opField c.cw = 5#3) :
    firstError cfg c =
      if lanesCanonical (fbField c.cw).len c.b = false then some .invalidSubnetMask else none := by
  simp [firstError, hrsv, hop]

theorem firstError_cmp (hop : opField c.cw = 6#3) :
    firstError cfg c =
      if pField c.cw > (faField c.cw).bitlen ∨
          (cfg.strictV6 = true ∧ faField c.cw = .v6 ∧ pField c.cw > 126) then
        some .prefixOutOfRange
      else none := by
  by_cases habove : pField c.cw > (faField c.cw).bitlen <;> simp [firstError, hrsv, hop, habove]

theorem firstError_cmpm (hop : opField c.cw = 7#3) :
    firstError cfg c =
      if faField c.cw ≠ fbField c.cw then some .lengthMismatch
      else if lanesCanonical (fbField c.cw).len c.b = false then some .invalidSubnetMask
      else if cfg.strictV6 = true ∧ faField c.cw = .v6 ∧
          onesInLanes (faField c.cw).len c.b > 126 then
        some .prefixOutOfRange
      else none := by
  simp [firstError, hrsv, hop]

end FirstError

/-! ### The status of each group of commands, by the same conditions -/

theorem byteOp_status (g : Byte → Byte → Byte) (fa fb : Family) (c : Command) :
    (byteOp g fa fb c).toResponse.st =
      .ofError (if fa ≠ fb then some .lengthMismatch else none) := by
  by_cases hf : fa = fb
  · subst hf
    rw [byteOp_self, if_neg (not_not_intro rfl)]
    rfl
  · rw [byteOp_of_ne g hf, if_pos hf]
    rfl

theorem mfpResult_status (cfg : Config) (f : Family) (p : Nat) :
    (mfpResult cfg f p).toResponse.st =
      .ofError (if p > f.bitlen then some .prefixOutOfRange else none) := by
  by_cases hp : p > f.bitlen
  · rw [mfpResult_of_gt cfg hp, if_pos hp]
    rfl
  · rw [mfpResult_of_le cfg (Nat.le_of_not_lt hp), if_neg hp]
    rfl

theorem pfmResult_status (f : Family) (c : Command) :
    (pfmResult f c).toResponse.st =
      .ofError (if lanesCanonical f.len c.b = false then some .invalidSubnetMask else none) := by
  cases h : lanesCanonical f.len c.b with
  | false => rw [pfmResult_of_not_canonical h]; rfl
  | true => rw [pfmResult_of_canonical h]; rfl

theorem guardedCompute_status (cfg : Config) (a : List Byte) (f : Family) (p : Nat) :
    (guardedCompute cfg a f p).toResponse.st =
      .ofError (if p > f.bitlen ∨ (cfg.strictV6 = true ∧ f = .v6 ∧ p > 126) then
        some .prefixOutOfRange else none) := by
  split
  case isTrue h =>
    rw [guardedCompute_of_outside a h]
    rfl
  case isFalse h =>
    obtain ⟨hp, hs⟩ := not_or.mp h
    rw [guardedCompute_of_inside a (Nat.le_of_not_lt hp) hs]
    rfl

/-- The length that `CMPM` derives is never above the bit length, so only the strict limit is left. -/
theorem cmpmResult_status (cfg : Config) (fa fb : Family) (c : Command) :
    (cmpmResult cfg fa fb c).toResponse.st =
      .ofError (if fa ≠ fb then some .lengthMismatch
        else if lanesCanonical fb.len c.b = false then some .invalidSubnetMask
        else if cfg.strictV6 = true ∧ fa = .v6 ∧ onesInLanes fa.len c.b > 126 then
          some .prefixOutOfRange
        else none) := by
  by_cases hf : fa = fb
  · subst hf
    rw [if_neg (not_not_intro rfl)]
    cases h : lanesCanonical fa.len c.b with
    | false => rw [cmpmResult_of_not_canonical cfg h]; rfl
    | true =>
      have hle : ¬ onesInLanes fa.len c.b > fa.bitlen := (onesInLanes_le_bitlen fa c.b).not_gt
      rw [cmpmResult_of_canonical cfg h, guardedCompute_status, if_neg (by decide : ¬ true = false)]
      simp only [hle, false_or]
  · rw [cmpmResult_of_ne cfg hf, if_pos hf]
    rfl

/-- The status of the answer is the first condition of the table that applies: row by row of the opcode
map. -/
theorem answerTo_status (cfg : Config) (c : Command) :
    (answerTo cfg c).toResponse.st = .ofError (firstError cfg c) := by
  by_cases hrsv : rsvField c.cw = 0#3
  case neg =>
    rw [answerTo_of_rsv_ne cfg hrsv, firstError_of_illegal (.inl hrsv)]
    rfl
  case pos =>
    rw [answerTo_of_rsv_zero cfg hrsv]
    rcases opcode_cases (opField c.cw) with hop | hop | hop | hop | hop | hop | hop | hop
    · rw [firstError_byteOp hrsv (.inl hop), hop]
      exact byteOp_status _ _ _ c
    · rw [firstError_byteOp hrsv (.inr (.inl hop)), hop]
      exact byteOp_status _ _ _ c
    · rw [firstError_byteOp hrsv (.inr (.inr hop)), hop]
      exact byteOp_status _ _ _ c
    · rw [firstError_of_illegal (.inr hop), hop]
      rfl
    · rw [firstError_mfp hrsv hop, hop]
      exact mfpResult_status cfg _ _
    · rw [firstError_pfm hrsv hop, hop]
      exact pfmResult_status _ c
    · rw [firstError_cmp hrsv hop, hop]
      exact guardedCompute_status cfg _ _ _
    · rw [firstError_cmpm hrsv hop, hop]
      exact cmpmResult_status cfg _ _ c

/-- Settles O48: the unit answers every command, and its status is that of the table. -/
theorem errorsAreExactlyTheTable : Obligations.ErrorsAreExactlyTheTable := by
  intro cfg c
  refine ⟨_, respond_eq cfg c, (answerTo_status cfg c).trans ?_⟩
  cases firstError cfg c <;> rfl

end Sys2Proof.Machine
end
